-- ==== Sys2Proof/Word.lean ====
section
/-! DEFINITION. The two bit-vector types of the machine: the operand word and the byte (R6, R7). -/

namespace Sys2Proof

/-- An operand word: 16 bits, unsigned (R6 with `W = 2`, R7). `pc`, `reg` and every stack entry are words. -/
abbrev Word := BitVec 16

/-- The addressable unit of the program space (R40). -/
abbrev Byte := BitVec 8

end Sys2Proof
end

