-- ==== Sys2Proof/Config.lean ====
section
/-! DEFINITION. What is fixed for one build of the machine: the parameters of R6 and R30, and the names of the 25 opcodes
(R1). The opcodes' bytes, mnemonics and arities are in `Sys2Proof/Decode.lean`. -/

namespace Sys2Proof

/-- The opcodes, "an enumerated tag", in the order of the source's list (R1, R64). -/
inductive Opcode
  | nop | push | pop | load | call
  | equ | nequ | gt | gteq | lt | lteq
  | add | sub | mul | div | xor | or | mod | neg | and
  | jmp | jmpz | jmpnz
  | print | halt
  deriving DecidableEq, Repr

namespace Config

/-- `W`, the operand-word size in bytes (R6, D1; log 5). -/
def wordBytes : Nat := 2

/-- `N = 8·W`, the operand-word size in bits (R6). -/
def wordBits : Nat := 8 * wordBytes

/-- `PROG_SIZE_MAX = 2^N − 1`, the largest program `load` accepts, in bytes (R6, R162, D17). -/
def progSizeMax : Nat := 2 ^ wordBits - 1

/-- `STACK_DEPTH`, the capacity of the operand stack in words: unbounded on this hardware (R6, R25, D16; log 7). -/
def stackDepth : Option Nat := none

/-- FREE VALUE: how many entries the Native Call Table has beyond entry 0. The spec leaves `NCALL` open (R6, R168, D14;
log 6), so no value of this constant can be proved. -/
opaque extraNativeEntries : Nat

/-- `NCALL`, the number of entries of the Native Call Table: at least 1, otherwise open (R6, R168). -/
def ncall : Nat := extraNativeEntries + 1

end Config

end Sys2Proof
end

