-- ==== Sys2Proof/Syntax.lean ====
section
/-! DEFINITION. The instructions, one constructor per row of `spec/opcode_table.json` (R66). -/

namespace Sys2Proof

/-- A decoded instruction: "`{opcode, optional operand}`" (R92). The five instructions of arity 1 carry their operand word;
every value `0..65535` of it is a legal encoding (R70), so nothing of this type is ill-formed. -/
inductive Instr
  | nop
  | push (imm : Word)
  | pop
  | load
  | call (imm : Word)
  | equ
  | nequ
  | gt
  | gteq
  | lt
  | lteq
  | add
  | sub
  | mul
  | div
  | xor
  | or
  | mod
  | neg
  | and
  | jmp (imm : Word)
  | jmpz (imm : Word)
  | jmpnz (imm : Word)
  | print
  | halt
  deriving DecidableEq, Repr

end Sys2Proof
end

