-- ==== Sys2Proof/Decode.lean ====
section
/-! DEFINITION. The Instruction Set Registry (R66, R67), the decoder (R62, R63, R92), total on any bytes and rejecting by
name, and after it the encoder (R60, R61, R80). -/

namespace Sys2Proof

/-! ### The registry -/

/-- What an opcode makes an instruction of: nothing more (format `Z`), or an operand word (format `I`) (R61). -/
inductive Shape
  | plain (i : Instr)
  | withOperand (build : Word → Instr)

/-- The format column of R66: `PUSH`, `CALL`, `JMP`, `JMPZ`, `JMPNZ` carry an operand word, the other 20 carry none (R65). -/
def Opcode.shape : Opcode → Shape
  | .nop => .plain .nop
  | .push => .withOperand .push
  | .pop => .plain .pop
  | .load => .plain .load
  | .call => .withOperand .call
  | .equ => .plain .equ
  | .nequ => .plain .nequ
  | .gt => .plain .gt
  | .gteq => .plain .gteq
  | .lt => .plain .lt
  | .lteq => .plain .lteq
  | .add => .plain .add
  | .sub => .plain .sub
  | .mul => .plain .mul
  | .div => .plain .div
  | .xor => .plain .xor
  | .or => .plain .or
  | .mod => .plain .mod
  | .neg => .plain .neg
  | .and => .plain .and
  | .jmp => .withOperand .jmp
  | .jmpz => .withOperand .jmpz
  | .jmpnz => .withOperand .jmpnz
  | .print => .plain .print
  | .halt => .plain .halt

/-- `arity_of` (R67): 0 or 1, fixed per opcode (R62). -/
def Opcode.arity (o : Opcode) : Nat :=
  match o.shape with
  | .plain _ => 0
  | .withOperand _ => 1

/-- The byte column of R66 (R64, D2; log 4). -/
def Opcode.byte : Opcode → Byte
  | .nop => 0x00#8
  | .push => 0x01#8
  | .pop => 0x02#8
  | .load => 0x03#8
  | .call => 0x04#8
  | .equ => 0x05#8
  | .nequ => 0x06#8
  | .gt => 0x07#8
  | .gteq => 0x08#8
  | .lt => 0x09#8
  | .lteq => 0x0A#8
  | .add => 0x0B#8
  | .sub => 0x0C#8
  | .mul => 0x0D#8
  | .div => 0x0E#8
  | .xor => 0x0F#8
  | .or => 0x10#8
  | .mod => 0x11#8
  | .neg => 0x12#8
  | .and => 0x13#8
  | .jmp => 0x14#8
  | .jmpz => 0x15#8
  | .jmpnz => 0x16#8
  | .print => 0x17#8
  | .halt => 0x18#8

/-- `mnemonic_of` (R67): the names of R66, in upper case exactly as listed (R77). -/
def Opcode.mnemonic : Opcode → String
  | .nop => "NOP"
  | .push => "PUSH"
  | .pop => "POP"
  | .load => "LOAD"
  | .call => "CALL"
  | .equ => "EQU"
  | .nequ => "NEQU"
  | .gt => "GT"
  | .gteq => "GTEQ"
  | .lt => "LT"
  | .lteq => "LTEQ"
  | .add => "ADD"
  | .sub => "SUB"
  | .mul => "MUL"
  | .div => "DIV"
  | .xor => "XOR"
  | .or => "OR"
  | .mod => "MOD"
  | .neg => "NEG"
  | .and => "AND"
  | .jmp => "JMP"
  | .jmpz => "JMPZ"
  | .jmpnz => "JMPNZ"
  | .print => "PRINT"
  | .halt => "HALT"

/-- The rows of the registry, "every opcode has exactly one registry entry" (R66), in the table's order. -/
def Opcode.all : List Opcode :=
  [.nop, .push, .pop, .load, .call, .equ, .nequ, .gt, .gteq, .lt, .lteq, .add, .sub, .mul, .div, .xor, .or, .mod,
    .neg, .and, .jmp, .jmpz, .jmpnz, .print, .halt]

/-- `decode_byte` (R67): the row whose byte is `b`, or not found for a byte in `25..255`. -/
def decodeByte (b : Byte) : Option Opcode :=
  Opcode.all.find? fun o => o.byte == b

/-- `opcode_of` (R67): exact-string-match, case-sensitive. -/
def opcodeOf (m : String) : Option Opcode :=
  Opcode.all.find? fun o => o.mnemonic == m

/-- The length in bytes, `1 + arity·W`, a function of the opcode alone (R60, R62). -/
def Opcode.size (o : Opcode) : Nat :=
  1 + o.arity * Config.wordBytes

/-! ### The decoder -/

/-- `MemRead(addr, n)` (R11): `n` bytes from `addr` on, least significant first (R42); none when one of them does not exist. -/
def memRead (read : Nat → Option Byte) (addr : Nat) : Nat → Option Nat
  | 0 => some 0
  | n + 1 =>
    match read addr, memRead read (addr + 1) n with
    | some b, some v => some (b.toNat + 256 * v)
    | _, _ => none

/-- What fetch and decode find at an instruction address: an instruction, an illegal opcode byte (R69), or bytes that do
not all exist (R73, R91). -/
inductive DecodeResult
  | instr (i : Instr)
  | invalidOpcode (b : Byte)
  | outOfBounds
  deriving DecidableEq, Repr

/-- Decode the instruction at `a0` of whatever bytes `read` answers, in the order of R91 and R92: opcode byte, registry,
operand bytes. -/
def decodeAt (read : Nat → Option Byte) (a0 : Nat) : DecodeResult :=
  match read a0 with
  | none => .outOfBounds
  | some b =>
    match decodeByte b with
    | none => .invalidOpcode b
    | some o =>
      match o.shape with
      | .plain i => .instr i
      | .withOperand build =>
        match memRead read (a0 + 1) Config.wordBytes with
        | none => .outOfBounds
        | some v => .instr (build (BitVec.ofNat 16 v))

/-- Decode the instruction that a byte string begins with. -/
def decode (bytes : List Byte) : DecodeResult :=
  decodeAt (fun k => bytes[k]?) 0

/-! ### The parts of an instruction, and the encoder -/

/-- The opcode of an instruction. -/
def Instr.opcode : Instr → Opcode
  | .nop => .nop
  | .push _ => .push
  | .pop => .pop
  | .load => .load
  | .call _ => .call
  | .equ => .equ
  | .nequ => .nequ
  | .gt => .gt
  | .gteq => .gteq
  | .lt => .lt
  | .lteq => .lteq
  | .add => .add
  | .sub => .sub
  | .mul => .mul
  | .div => .div
  | .xor => .xor
  | .or => .or
  | .mod => .mod
  | .neg => .neg
  | .and => .and
  | .jmp _ => .jmp
  | .jmpz _ => .jmpz
  | .jmpnz _ => .jmpnz
  | .print => .print
  | .halt => .halt

/-- The operand word of an instruction of arity 1 (R63). -/
def Instr.operand : Instr → Option Word
  | .push imm => some imm
  | .call imm => some imm
  | .jmp imm => some imm
  | .jmpz imm => some imm
  | .jmpnz imm => some imm
  | .nop | .pop | .load | .equ | .nequ | .gt | .gteq | .lt | .lteq | .add | .sub | .mul | .div | .xor | .or | .mod
  | .neg | .and | .print | .halt => none

/-- The length of an instruction in bytes (R60). -/
def Instr.size (i : Instr) : Nat :=
  i.opcode.size

/-- The operand's bytes: byte `k` holds `imm[8k+7:8k]`, for `k = 0..W−1` (R61). -/
def operandBytes (imm : Word) : List Byte :=
  (List.range Config.wordBytes).map fun k => imm.extractLsb' (8 * k) 8

/-- "the opcode byte, then the operand word(s) if arity is 1" (R80, R61). -/
def encode (i : Instr) : List Byte :=
  i.opcode.byte :: match i.operand with
    | none => []
    | some imm => operandBytes imm

/-! ### The host's table words -/

/-- The bytes of an instruction whose bits are `w`, bit 0 the least significant bit of the first byte; the bits above
`nbits` are 0, up to the longest instruction's three bytes. -/
def tableBytes (nbits w : Nat) : List Byte :=
  (List.range (1 + Config.wordBytes)).map fun k => BitVec.ofNat 8 (w % 2 ^ nbits / 256 ^ k)

/-- The instruction the decoder reads from those bytes. -/
def decodeTableWord (nbits w : Nat) : Option Instr :=
  match decode (tableBytes nbits w) with
  | .instr i => some i
  | .invalidOpcode _ => none
  | .outOfBounds => none

end Sys2Proof
end

