-- ==== Sys2Proof/Machine/State.lean ====
section
/-! DEFINITION. The machine's state (R20), the fault record (R28), the state after reset (R34), and the reasons for which a
step could stop. -/

namespace Sys2Proof.Machine

/-- The run state (R26). -/
inductive Mode
  | idle
  | running
  | halted
  deriving DecidableEq, Repr

/-- The six kinds of runtime fault (R181 to R186). -/
inductive FaultKind
  | invalidOpcode
  | stackUnderflow
  | divideByZero
  | fetchOutOfBounds
  | invalidNativeIndex
  | stackOverflow
  deriving DecidableEq, Repr

/-- The fault record's six fields (R28); `code` is a plain number (log 19). -/
structure FaultRecord where
  kind : FaultKind
  code : Nat
  pc : Word
  reg : Word
  progSize : Word
  info : Word
  deriving DecidableEq, Repr

/-- A byte memory: the addresses that do not read as 0, rising, with their bytes (log 2). -/
abbrev Memory := List Host.Cell

/-- "The complete architectural state of the engine" and its two output event sequences (R20). -/
structure State where
  /-- The program counter, a byte offset into the program (R21). -/
  pc : Word
  /-- The scratch register (R24). -/
  reg : Word
  /-- The operand stack, TOP FIRST: the spec's `[x, y]` is `[y, x]` here (R25; log 1). -/
  stk : List Word
  /-- The run state (R26). -/
  mode : Mode
  /-- The fault record, `none` until a fault (R28). -/
  fault : Option FaultRecord
  /-- The bytes of the program buffer (R29). -/
  prog : Memory
  /-- `PROG_SIZE`: the offsets below it exist, the others hold nothing (R29, R40; log 3). -/
  progSize : Word
  /-- The print stream, oldest first (R31). -/
  prints : List Word
  /-- The native-call stream of index and argument, oldest first (R31). -/
  calls : List (Word × Word)
  deriving DecidableEq, Repr

/-- The machine after `reset` and at construction: the table of R34. -/
def State.reset : State where
  pc := 0#16
  reg := 0#16
  stk := []
  mode := .idle
  fault := none
  prog := []
  progSize := 0#16
  prints := []
  calls := []

/-- Reasons for which a step stops without a next state. There is none: every runtime fault has an entry that the spec
describes (R190) and is therefore a next state, and the spec leaves no instruction without an effect. -/
inductive Fault
  deriving DecidableEq, Repr

/-- Reasons for which an instruction has no meaning in the model. -/
inductive Refusal
  /-- Raised by an arm of `exec` whose instruction is not modelled yet; no arm raises it. Safe. -/
  | notModelled (mnemonic : String)
  deriving DecidableEq, Repr

end Sys2Proof.Machine
end

