-- ==== Sys2Proof/Machine/Ops.lean ====
section
/-! DEFINITION. The named operations every meaning is written with: the program memory, the updates of single fields, fault
entry (R190), and the push (R25). -/

namespace Sys2Proof.Machine

/-- What one step answers. -/
abbrev Outcome := Host.Outcome State Fault Refusal

/-! ### The program memory -/

/-- What an unlisted address below `PROG_SIZE` reads as (log 2). -/
def Memory.unlisted : Byte := 0#8

/-- The byte at an address. -/
def Memory.read : Memory → Nat → Byte
  | [], _ => Memory.unlisted
  | (k, b) :: rest, a => if k = a then b else Memory.read rest a

/-- Write one byte, keeping the canonical form: writing what an unlisted address reads as removes the entry. -/
def Memory.write : Memory → Nat → Byte → Memory
  | [], a, b => if b = Memory.unlisted then [] else [(a, b)]
  | (k, c) :: rest, a, b =>
    if a < k then (if b = Memory.unlisted then (k, c) :: rest else (a, b) :: (k, c) :: rest)
    else if a = k then (if b = Memory.unlisted then rest else (a, b) :: rest)
    else (k, c) :: Memory.write rest a b

/-- Write a byte string from an address on. -/
def Memory.writeAll : Memory → Nat → List Byte → Memory
  | m, _, [] => m
  | m, a, b :: bytes => Memory.writeAll (Memory.write m a b) (a + 1) bytes

/-- The memory that holds a byte string from address `a` on and nothing else. -/
def Memory.ofBytesAt : Nat → List Byte → Memory
  | _, [] => []
  | a, b :: bytes =>
    if b = Memory.unlisted then Memory.ofBytesAt (a + 1) bytes else (a, b) :: Memory.ofBytesAt (a + 1) bytes

/-- The memory that holds a program from offset 0 on, "dense, with no header" (R49). -/
def Memory.ofBytes (bytes : List Byte) : Memory :=
  Memory.ofBytesAt 0 bytes

/-- Addresses strictly rising from `lo` on, and no entry equal to what an unlisted address reads as. -/
def Memory.wfFrom : Nat → Memory → Bool
  | _, [] => true
  | lo, (k, b) :: rest => decide (lo ≤ k) && decide (b ≠ Memory.unlisted) && Memory.wfFrom (k + 1) rest

/-- The canonical form, in which equal memories are equal lists. -/
def Memory.wf (m : Memory) : Bool :=
  Memory.wfFrom 0 m

/-- A read of one byte of the program space: admitted only below `PROG_SIZE` (R40, R47). -/
def State.readByte (s : State) (a : Nat) : Option Byte :=
  if a < s.progSize.toNat then some (Memory.read s.prog a) else none

/-! ### Updates of single fields -/

/-- `pc <- a0 + 1 + arity·W` (R93). In a step this never passes `PROG_SIZE`, so it never wraps (R23; log 12). -/
def State.advance (s : State) (o : Opcode) : State :=
  { s with pc := s.pc + BitVec.ofNat 16 o.size }

/-- `pc <- target` (R140). -/
def State.jump (s : State) (target : Word) : State :=
  { s with pc := target }

/-- `reg <- v` (R101). -/
def State.setReg (s : State) (v : Word) : State :=
  { s with reg := v }

/-- The operand stack becomes `ws`, top first. -/
def State.setStk (s : State) (ws : List Word) : State :=
  { s with stk := ws }

/-- `mode <- m` (R26). -/
def State.setMode (s : State) (m : Mode) : State :=
  { s with mode := m }

/-- `emit Print(v)` (R13). -/
def State.emitPrint (s : State) (v : Word) : State :=
  { s with prints := s.prints ++ [v] }

/-- `emit NativeCall(i, v)` (R13). -/
def State.emitCall (s : State) (i v : Word) : State :=
  { s with calls := s.calls ++ [(i, v)] }

/-! ### Taking a fault -/

/-- The cause codes; 0 is never used (R187). -/
def FaultKind.code : FaultKind → Nat
  | .invalidOpcode => 1
  | .stackUnderflow => 2
  | .divideByZero => 3
  | .fetchOutOfBounds => 4
  | .invalidNativeIndex => 5
  | .stackOverflow => 6

/-- Fault entry (R190), applied to the state in which the step began: that is how "every write the step has made is undone"
(R95). The record is written and the machine halts; control goes nowhere. There is no return from it (R192): the way on is
`State.reset`. -/
def State.enterFault (s : State) (kind : FaultKind) (info : Word) : State :=
  { s with
    mode := .halted
    fault := some
      { kind := kind, code := kind.code, pc := s.pc, reg := s.reg, progSize := s.progSize, info := info } }

/-- `raise kind(info)` (R12): the step's outcome is the fault's entry, a next state. -/
def raise (kind : FaultKind) (info : Word) (s : State) : Outcome :=
  .next (s.enterFault kind info)

/-! ### The push -/

/-- A push onto a stack of depth `d` would exceed the capacity (R25, R186); never true of an unbounded stack (log 7). -/
def stackFull (capacity : Option Nat) (d : Nat) : Bool :=
  match capacity with
  | none => false
  | some c => decide (c ≤ d)

/-- The execute stage of an instruction that pushes `v` and does nothing else (R100, R102), for a stack of the given
capacity. -/
def pushWith (capacity : Option Nat) (o : Opcode) (v : Word) (s : State) : Outcome :=
  if stackFull capacity s.stk.length then raise .stackOverflow 0#16 s
  else .next ((s.advance o).setStk (v :: s.stk))

end Sys2Proof.Machine
end

