-- ==== Sys2Proof/Machine/Operands.lean ====
section
/-! DEFINITION. The operand forms. An operand is implicit on the stack (the top word, or the top two), implicit in the
scratch register (`s.reg`, R102), or the instruction's operand word (assembled by the decoder, R63). There is no addressing
mode (R48). The depth is tested before anything is popped (R110, R182). -/

namespace Sys2Proof.Machine

/-- The form that needs the top word `a`: `if depth(stk) < 1 then raise StackUnderflow` (R182), else go on with `a` and the
words under it. -/
def withTop (s : State) (go : Word → List Word → Outcome) : Outcome :=
  match s.stk with
  | a :: rest => go a rest
  | [] => raise .stackUnderflow 0#16 s

/-- The form that needs the top word `a` and the word `b` under it: `if depth(stk) < 2 then raise StackUnderflow` (R110). -/
def withTopTwo (s : State) (go : Word → Word → List Word → Outcome) : Outcome :=
  match s.stk with
  | a :: b :: rest => go a b rest
  | [_] => raise .stackUnderflow 0#16 s
  | [] => raise .stackUnderflow 0#16 s

/-- The binary template (R110): pop `a`, pop `b`, push `f a b`; `reg` is not touched. -/
def binaryOp (o : Opcode) (f : Word → Word → Word) (s : State) : Outcome :=
  withTopTwo s fun a b rest => .next ((s.advance o).setStk (f a b :: rest))

end Sys2Proof.Machine
end

