-- ==== Sys2Proof/Machine/ArithLogic.lean ====
section
/-! DEFINITION. The arithmetic and logic instructions (`42_arith_logic.md`). In every operation `a` is the word that was on
top and `b` the word under it; the operand order is the table's, not uniform (R123, C1). -/

namespace Sys2Proof.Machine

/-- `wrap(x) = x mod 2^N` (R8). -/
def wrap (x : Int) : Word :=
  BitVec.ofInt 16 x

/-- `wrap(a + b)` (R114). -/
def addWords (a b : Word) : Word :=
  wrap ((a.toNat : Int) + (b.toNat : Int))

/-- `wrap(b − a)` (R115). -/
def subWords (a b : Word) : Word :=
  wrap ((b.toNat : Int) - (a.toNat : Int))

/-- `wrap(a × b)` (R116). -/
def mulWords (a b : Word) : Word :=
  wrap ((a.toNat : Int) * (b.toNat : Int))

/-- `b div a`, the floor quotient (R113, R117); used only for `a ≠ 0`. -/
def divWords (a b : Word) : Word :=
  wrap ((b.toNat / a.toNat : Nat) : Int)

/-- `a mod b` (R113, R118); used only for `b ≠ 0`. -/
def modWords (a b : Word) : Word :=
  wrap ((a.toNat % b.toNat : Nat) : Int)

/-- The template of DIV and MOD: a zero divisor is tested after the depth and before any pop (R113, R183). -/
def divisionOp (o : Opcode) (divisor f : Word → Word → Word) (s : State) : Outcome :=
  withTopTwo s fun a b rest =>
    if divisor a b = 0#16 then raise .divideByZero 0#16 s
    else .next ((s.advance o).setStk (f a b :: rest))

/-- `ADD` (R114). -/
def execAdd (s : State) : Outcome :=
  binaryOp .add addWords s

/-- `SUB` (R115). -/
def execSub (s : State) : Outcome :=
  binaryOp .sub subWords s

/-- `MUL` (R116). -/
def execMul (s : State) : Outcome :=
  binaryOp .mul mulWords s

/-- `DIV` (R117): the divisor is the top word. -/
def execDiv (s : State) : Outcome :=
  divisionOp .div (fun a _ => a) divWords s

/-- `MOD` (R118): the divisor is the word under the top. -/
def execMod (s : State) : Outcome :=
  divisionOp .mod (fun _ b => b) modWords s

/-- `XOR` (R119). -/
def execXor (s : State) : Outcome :=
  binaryOp .xor (fun a b => a ^^^ b) s

/-- `OR` (R120). -/
def execOr (s : State) : Outcome :=
  binaryOp .or (fun a b => a ||| b) s

/-- `AND` (R121). -/
def execAnd (s : State) : Outcome :=
  binaryOp .and (fun a b => a &&& b) s

/-- `NEG` (R122): the bitwise complement. -/
def execNeg (s : State) : Outcome :=
  withTop s fun a rest => .next ((s.advance .neg).setStk (~~~a :: rest))

end Sys2Proof.Machine
end

