-- ==== Sys2Proof/Machine/Flags.lean ====
section
/-! DEFINITION. "There are no status flags, condition codes or predicate registers" (R32): what other machines put in a flag
is here a pushed word (comparisons, R130) or a popped word (conditional branches, R142, R143). -/

namespace Sys2Proof.Machine

/-- `bool(c)`: the word 1 when the condition holds, else the word 0 (R8). -/
def boolWord (c : Bool) : Word :=
  if c then 1#16 else 0#16

/-- The template of the six comparisons: the relation is between unsigned integers and `a`, the top word, is its left-hand
side (R130, C1). -/
def compareOp (o : Opcode) (rel : Nat → Nat → Bool) (s : State) : Outcome :=
  binaryOp o (fun a b => boolWord (rel a.toNat b.toNat)) s

/-- The template of the two conditional branches: the tested word is popped whether or not the branch is taken, and a taken
branch overwrites the advanced `pc` (R140, R142, R143). -/
def branchOn (o : Opcode) (taken : Word → Bool) (target : Word) (s : State) : Outcome :=
  withTop s fun c rest =>
    let popped := (s.advance o).setStk rest
    .next (if taken c then popped.jump target else popped)

end Sys2Proof.Machine
end

