-- ==== Sys2Proof/Machine/Compare.lean ====
section
/-! DEFINITION. The comparison instructions (`43_compare.md`). -/

namespace Sys2Proof.Machine

/-- `EQU` (R131). -/
def execEqu (s : State) : Outcome :=
  compareOp .equ (fun a b => decide (a = b)) s

/-- `NEQU` (R132). -/
def execNequ (s : State) : Outcome :=
  compareOp .nequ (fun a b => decide (a ≠ b)) s

/-- `GT` (R133). -/
def execGt (s : State) : Outcome :=
  compareOp .gt (fun a b => decide (a > b)) s

/-- `GTEQ` (R134). -/
def execGteq (s : State) : Outcome :=
  compareOp .gteq (fun a b => decide (a ≥ b)) s

/-- `LT` (R135). -/
def execLt (s : State) : Outcome :=
  compareOp .lt (fun a b => decide (a < b)) s

/-- `LTEQ` (R136). -/
def execLteq (s : State) : Outcome :=
  compareOp .lteq (fun a b => decide (a ≤ b)) s

end Sys2Proof.Machine
end

