-- ==== Sys2Proof/Machine/ControlFlow.lean ====
section
/-! DEFINITION. The control-transfer instructions (`44_control_flow.md`). A target is not checked when the branch executes
(R144). -/

namespace Sys2Proof.Machine

/-- `JMP imm` (R141): the advance of R93 first, then the target overwrites it (R140, C2). -/
def execJmp (imm : Word) (s : State) : Outcome :=
  .next ((s.advance .jmp).jump imm)

/-- `JMPZ imm` (R142). -/
def execJmpz (imm : Word) (s : State) : Outcome :=
  branchOn .jmpz (fun c => decide (c = 0#16)) imm s

/-- `JMPNZ imm` (R143). -/
def execJmpnz (imm : Word) (s : State) : Outcome :=
  branchOn .jmpnz (fun c => decide (c ≠ 0#16)) imm s

end Sys2Proof.Machine
end

