-- ==== Sys2Proof/Machine/StackOps.lean ====
section
/-! DEFINITION. The stack instructions PUSH, POP, LOAD (`41_stack_ops.md`). -/

namespace Sys2Proof.Machine

/-- `PUSH imm` (R100). -/
def execPush (imm : Word) (s : State) : Outcome :=
  pushWith Config.stackDepth .push imm s

/-- `POP` (R101). -/
def execPop (s : State) : Outcome :=
  withTop s fun a rest => .next (((s.advance .pop).setReg a).setStk rest)

/-- `LOAD` (R102): pushes the scratch register; reads no memory. -/
def execLoad (s : State) : Outcome :=
  pushWith Config.stackDepth .load s.reg s

end Sys2Proof.Machine
end

