-- ==== Sys2Proof/Machine/SystemOps.lean ====
section
/-! DEFINITION. The system instructions CALL, PRINT, HALT, NOP (`45_system.md`). -/

namespace Sys2Proof.Machine

/-- `CALL imm` for a Native Call Table of `n` entries (R150). Underflow is tested before the index (R188). The step includes
the wait for the call's completion, with which nothing comes back (R150, R169; log 8); `Session` shows the wait. -/
def callWith (n : Nat) (imm : Word) (s : State) : Outcome :=
  withTop s fun v rest =>
    if n ≤ imm.toNat then raise .invalidNativeIndex imm s
    else .next (((s.advance .call).setStk rest).emitCall imm v)

/-- `CALL imm` (R150), with the build's open table size (log 6). -/
def execCall (imm : Word) (s : State) : Outcome :=
  callWith Config.ncall imm s

/-- `PRINT` (R151): the top word is read and left in place. -/
def execPrint (s : State) : Outcome :=
  withTop s fun a _ => .next ((s.advance .print).emitPrint a)

/-- `HALT` (R152): stops the engine only (C5). -/
def execHalt (s : State) : Outcome :=
  .next ((s.advance .halt).setMode .halted)

/-- `NOP` (R153): `pc` advances, nothing else changes (C6). -/
def execNop (s : State) : Outcome :=
  .next (s.advance .nop)

end Sys2Proof.Machine
end

