-- ==== Sys2Proof/Machine/Dispatch.lean ====
section
/-! DEFINITION. The dispatch of R94: one arm per instruction. `exec i s` is the whole step for an instruction `i` that stands
at `s.pc`: the advance of R93, the execute stage, and fault entry from `s` (log 10). -/

namespace Sys2Proof.Machine

def exec (i : Instr) (s : State) : Host.Outcome State Fault Refusal :=
  match i with
  | .nop => Sys2Proof.Machine.execNop s
  | .push imm => Sys2Proof.Machine.execPush imm s
  | .pop => Sys2Proof.Machine.execPop s
  | .load => Sys2Proof.Machine.execLoad s
  | .call imm => Sys2Proof.Machine.execCall imm s
  | .equ => Sys2Proof.Machine.execEqu s
  | .nequ => Sys2Proof.Machine.execNequ s
  | .gt => Sys2Proof.Machine.execGt s
  | .gteq => Sys2Proof.Machine.execGteq s
  | .lt => Sys2Proof.Machine.execLt s
  | .lteq => Sys2Proof.Machine.execLteq s
  | .add => Sys2Proof.Machine.execAdd s
  | .sub => Sys2Proof.Machine.execSub s
  | .mul => Sys2Proof.Machine.execMul s
  | .div => Sys2Proof.Machine.execDiv s
  | .xor => Sys2Proof.Machine.execXor s
  | .or => Sys2Proof.Machine.execOr s
  | .mod => Sys2Proof.Machine.execMod s
  | .neg => Sys2Proof.Machine.execNeg s
  | .and => Sys2Proof.Machine.execAnd s
  | .jmp imm => Sys2Proof.Machine.execJmp imm s
  | .jmpz imm => Sys2Proof.Machine.execJmpz imm s
  | .jmpnz imm => Sys2Proof.Machine.execJmpnz imm s
  | .print => Sys2Proof.Machine.execPrint s
  | .halt => Sys2Proof.Machine.execHalt s

end Sys2Proof.Machine
end

