-- ==== Sys2Proof/Machine/Fetch.lean ====
section
/-! DEFINITION. Fetch, decode and the step of a running engine (R91 to R95), and where an instruction's bytes lie. -/

namespace Sys2Proof.Machine

/-- Fetch and decode at `pc` (R91, R92): the opcode byte at `a0`, and for arity 1 the operand bytes after it (R45). -/
def fetch (s : State) : DecodeResult :=
  decodeAt s.readByte s.pc.toNat

/-- One step of a running engine. The order of the fetch-stage faults is R188's. -/
def stepRunning (s : State) : Outcome :=
  match fetch s with
  | .instr i => exec i s
  | .invalidOpcode b => raise .invalidOpcode (b.setWidth 16) s
  | .outOfBounds => raise .fetchOutOfBounds 0#16 s

/-- The state with `bytes` in the program at `pc` and the engine running, so that the next fetch finds them; `PROG_SIZE`
grows to hold them. Where they do not fit below `PROG_SIZE_MAX`, `pc` is set to 0 first (log 11). -/
def State.withBytesAtPc (s : State) (bytes : List Byte) : State :=
  let base : Word := if s.pc.toNat + bytes.length ≤ Config.progSizeMax then s.pc else 0#16
  { s with
    pc := base
    mode := .running
    prog := Memory.writeAll s.prog base.toNat bytes
    progSize := BitVec.ofNat 16 (max s.progSize.toNat (base.toNat + bytes.length)) }

end Sys2Proof.Machine
end

