-- ==== Sys2Proof/Machine/Step.lean ====
section
/-! DEFINITION. The step (R90), and the host's way of placing an instruction. -/

namespace Sys2Proof.Machine

/-- One step. The engine takes a step if and only if it is running; in `idle` and in `halted` it takes none, and the state
stays as it is (R90; log 9). -/
def step (s : State) : Host.Outcome State Fault Refusal :=
  match s.mode with
  | .running => stepRunning s
  | .idle => .next s
  | .halted => .next s

/-- The state with the instruction whose bits are `w` stored where the next step fetches (log 11): it stands for the host's
`load` and `start`. -/
def State.withFetchWord (s : State) (nbits w : Nat) : State :=
  s.withBytesAtPc (tableBytes nbits w)

end Sys2Proof.Machine
end

