-- ==== Sys2Proof/WellFormed.lean ====
section
/-! DEFINITION. Well-formedness. A term of `Instr` has nothing left to check (R70), so the checks stand where unchecked data
comes in: an opcode with an optional number, as a writer of programs gives it (R65, R78), and a byte stream, as a host loads
it (R68). -/

namespace Sys2Proof

/-- An instruction as written: an opcode and perhaps a number (R75, R92). -/
structure RawInstr where
  opcode : Opcode
  operand : Option Nat
  deriving DecidableEq, Repr

/-- An operand is given exactly when the arity is 1 (R65). -/
def RawInstr.operandMatchesArity (r : RawInstr) : Bool :=
  r.operand.isSome == (r.opcode.arity == 1)

/-- The operand is a word, `0..65535` (R63). -/
def RawInstr.operandFits (r : RawInstr) : Bool :=
  r.operand.all fun n => decide (n < 2 ^ Config.wordBits)

/-- An instruction as written stands for an instruction of the machine. -/
def RawInstr.wellFormed (r : RawInstr) : Bool :=
  r.operandMatchesArity && r.operandFits

/-- The instruction that is written, if it is well-formed. -/
def RawInstr.toInstr (r : RawInstr) : Option Instr :=
  if r.wellFormed then
    match r.opcode.shape, r.operand with
    | .plain i, _ => some i
    | .withOperand build, some n => some (build (BitVec.ofNat 16 n))
    | .withOperand _, none => none
  else none

/-- The written form of an instruction. -/
def Instr.raw (i : Instr) : RawInstr :=
  { opcode := i.opcode, operand := i.operand.map BitVec.toNat }

/-- `Instr.WellFormed i`: the written form of `i` passes every check. It does for every `i` (`Laws/Encoding.lean`). -/
abbrev Instr.WellFormed (i : Instr) : Prop :=
  i.raw.wellFormed = true

/-- The stream is "a sum of whole instruction encodings" (R68): `fuel` instructions at most, then nothing left over. -/
def wholeInstructionsWithin : Nat → List Byte → Bool
  | _, [] => true
  | 0, _ :: _ => false
  | fuel + 1, b :: bytes =>
    match decode (b :: bytes) with
    | .instr i => wholeInstructionsWithin fuel ((b :: bytes).drop i.size)
    | .invalidOpcode _ => false
    | .outOfBounds => false

/-- The whole stream is whole instructions (R68). The engine does not ask this of a program (R162, C7). -/
def wholeInstructions (bytes : List Byte) : Bool :=
  wholeInstructionsWithin bytes.length bytes

end Sys2Proof
end

