-- ==== Sys2Proof/Machine/Assembler.lean ====
section
/-! DEFINITION. The line syntax in which programs for this machine are written (R75 to R82), and the disassembler's line (R83).
The assembler and the disassembler are outside the CORE block (R5); the engine uses nothing of this file. Forms on which the
spec is silent (R81, N16, D24) are answered `notStated` (log 20). -/

namespace Sys2Proof.Assembler

/-- Source text, one character a list entry. -/
abbrev Text := List Char

/-- An operand as written: "a decimal integer literal or a label name" (R78). -/
inductive WrittenOperand
  | literal (n : Nat)
  | label (name : Text)
  | notStated
  deriving DecidableEq, Repr

/-- A source line (R75). -/
inductive SourceLine
  | ignored
  | labelDef (name : Text)
  | instr (mnemonic : Text) (operand : Option WrittenOperand)
  | notStated
  deriving DecidableEq, Repr

/-- A CompileError, "fatal to the current assembly, aborts with no binary output" (R81), or a form the spec is silent on. -/
inductive CompileError
  | invalidOpcode (mnemonic : Text)
  | duplicateLabel (name : Text)
  | invalidLabel (name : Text)
  | notStated
  deriving DecidableEq, Repr

/-- The result of an assembly. -/
inductive Assembled (α : Type)
  | ok (value : α)
  | error (e : CompileError)
  deriving DecidableEq, Repr

def digitValue (c : Char) : Nat :=
  c.toNat - '0'.toNat

def isDigit (c : Char) : Bool :=
  decide ('0'.toNat ≤ c.toNat) && decide (c.toNat ≤ '9'.toNat)

/-- The value of a decimal integer literal (R78). -/
def decimalValue (digits : Text) : Nat :=
  digits.foldl (fun n c => 10 * n + digitValue c) 0

/-- "if it starts with a digit, parse as a decimal integer; otherwise treat as a label reference" (R78). -/
def readOperand : Text → WrittenOperand
  | [] => .notStated
  | c :: rest =>
    if isDigit c then
      if rest.all isDigit then .literal (decimalValue (c :: rest)) else .notStated
    else .label (c :: rest)

/-- The pieces of a line between its spaces. -/
def splitAtSpaces : Text → List Text
  | [] => [[]]
  | c :: rest =>
    match c == ' ', splitAtSpaces rest with
    | true, pieces => [] :: pieces
    | false, piece :: pieces => (c :: piece) :: pieces
    | false, [] => [[c]]

/-- The kind of a line (R75, R76): "a `#` anywhere on the line blanks the whole line". Tabs, further spaces and a label
beside an instruction are forms the spec is silent on (N16). DESIGN CHOICE (log 20): the legal characters of a label name are not
stated either, and any characters but a space, a tab and a `#` make a name here, inner colons and a leading digit included. -/
def readLine (line : Text) : SourceLine :=
  if line = [] ∨ '#' ∈ line then .ignored
  else if '\t' ∈ line then .notStated
  else
    match splitAtSpaces line with
    | [word] =>
      if word.getLast? = some ':' then
        (if word.length = 1 then .notStated else .labelDef word.dropLast)
      else .instr word none
    | [word, operand] =>
      if word = [] ∨ operand = [] ∨ word.getLast? = some ':' then .notStated
      else .instr word (some (readOperand operand))
    | _ => .notStated

/-- The opcode of a mnemonic, by exact match (R77). -/
def mnemonicOpcode (m : Text) : Option Opcode :=
  opcodeOf (String.ofList m)

/-- The label table: names with their byte offsets (R79). -/
abbrev Labels := List (Text × Nat)

/-- The offset of a label. -/
def Labels.find : Labels → Text → Option Nat
  | [], _ => none
  | (name, offset) :: rest, n => if name = n then some offset else Labels.find rest n

/-- The labels of a program (R79): a label "is the byte offset of the next instruction emitted" and takes no bytes; a second
definition is an error. -/
def collectLabels : List SourceLine → Nat → Labels → Assembled Labels
  | [], _, known => .ok known
  | .ignored :: lines, offset, known => collectLabels lines offset known
  | .notStated :: _, _, _ => .error .notStated
  | .labelDef name :: lines, offset, known =>
    match known.find name with
    | some _ => .error (.duplicateLabel name)
    | none => collectLabels lines offset ((name, offset) :: known)
  | .instr m _ :: lines, offset, known =>
    match mnemonicOpcode m with
    | none => .error (.invalidOpcode m)
    | some o => collectLabels lines (offset + o.size) known

/-- The number an operand stands for (R78, R79). -/
def operandNumber (labels : Labels) : Option WrittenOperand → Assembled (Option Nat)
  | none => .ok none
  | some (.literal n) => .ok (some n)
  | some (.label name) =>
    match labels.find name with
    | some offset => .ok (some offset)
    | none => .error (.invalidLabel name)
  | some .notStated => .error .notStated

/-- The bytes of one line (R80). DESIGN CHOICE (log 20): the operand is looked up before it is compared with the arity, so an
unresolved label is `invalidLabel` on an instruction of arity 0 too, where the spec states nothing (N16); any other operand too many
or too few is `notStated`. -/
def lineBytes (labels : Labels) : SourceLine → Assembled (List Byte)
  | .ignored => .ok []
  | .labelDef _ => .ok []
  | .notStated => .error .notStated
  | .instr m operand =>
    match mnemonicOpcode m, operandNumber labels operand with
    | none, _ => .error (.invalidOpcode m)
    | some _, .error e => .error e
    | some o, .ok n =>
      match RawInstr.toInstr { opcode := o, operand := n } with
      | some i => .ok (encode i)
      | none => .error .notStated

/-- The bytes of the lines in order, "with no padding and no alignment between them" (R80). -/
def emit (labels : Labels) : List SourceLine → Assembled (List Byte)
  | [] => .ok []
  | line :: lines =>
    match lineBytes labels line, emit labels lines with
    | .ok now, .ok later => .ok (now ++ later)
    | .error e, _ => .error e
    | .ok _, .error e => .error e

/-- `assemble(source)`: labels first, so that a forward reference "resolves to the same numeric offset" (R79), then bytes. -/
def assemble (source : List Text) : Assembled (List Byte) :=
  let lines := source.map readLine
  match collectLabels lines 0 [] with
  | .error e => .error e
  | .ok labels => emit labels lines

/-- The disassembler's line for what stands at an offset (R83): the operand in decimal, or the literal token for an
unrecognized byte. DESIGN CHOICE (log 20): the spec gives no line for an instruction cut off by the end of the stream, or for no byte
at all, and here there is none. -/
def listingLine : DecodeResult → Option Text
  | .instr i =>
    match i.operand with
    | none => some i.opcode.mnemonic.toList
    | some imm => some (i.opcode.mnemonic.toList ++ ' ' :: (Nat.repr imm.toNat).toList)
  | .invalidOpcode _ => some "INVALID OPCODE".toList
  | .outOfBounds => none

end Sys2Proof.Assembler
end

