-- ==== Sys2Proof/Machine/HostOps.lean ====
section
/-! DEFINITION. The host's side of the engine's interface (`50_interfaces.md`): the five host operations, the status port and
the `run` composite. None of them is part of `step`. -/

namespace Sys2Proof.Machine

/-! ### The host operations -/

/-- The operations of R160. `load none` is a missing binary (R162; log 15). -/
inductive HostOp
  | reset
  | load (binary : Option (List Byte))
  | preloadPc (v : Word)
  | start
  | stop
  deriving DecidableEq, Repr

/-- What the host is answered. -/
inductive Answer
  | ok
  | loadError
  | refused
  deriving DecidableEq, Repr

/-- The run states in which an operation is accepted: the table of R160, without `start`'s condition on the program. -/
def HostOp.acceptedIn : HostOp → Mode → Bool
  | .reset, _ => true
  | .load _, m => m == .idle
  | .preloadPc _, m => m == .idle
  | .start, m => m == .idle
  | .stop, m => m == .running

/-- `load(bytes)` in `idle` (R162): the bytes themselves are not checked. -/
def loadIdle (binary : Option (List Byte)) (s : State) : State × Answer :=
  match binary with
  | none => (s, .loadError)
  | some bytes =>
    if bytes = [] ∨ Config.progSizeMax < bytes.length then (s, .loadError)
    else ({ s with prog := Memory.ofBytes bytes, progSize := BitVec.ofNat 16 bytes.length }, .ok)

/-- `start` in `idle` (R164): refused with no program loaded. -/
def startIdle (s : State) : State × Answer :=
  if s.progSize = 0#16 then (s, .refused) else (s.setMode .running, .ok)

/-- The effect of an operation in a run state that accepts it (R162 to R165, R210). DESIGN CHOICE (log 21): the spec gives answers
for `load` and `start` only, and an accepted `reset`, `preload_pc` or `stop` is answered `ok` here. -/
def acceptedEffect (op : HostOp) (s : State) : State × Answer :=
  match op with
  | .reset => (State.reset, .ok)
  | .load binary => loadIdle binary s
  | .preloadPc v => (s.jump v, .ok)
  | .start => startIdle s
  | .stop => (s.setMode .halted, .ok)

/-- A host operation between two steps: outside its run states it "has no effect on any state and is answered as refused"
(R161). -/
def hostOp (op : HostOp) (s : State) : State × Answer :=
  if op.acceptedIn s.mode then acceptedEffect op s else (s, .refused)

/-! ### The status port -/

/-- What the status port shows of an engine that is not running (R37, R171); the stack is given bottom first. -/
structure StatusDetail where
  fault : Option FaultRecord
  pc : Word
  reg : Word
  stkBottomFirst : List Word
  progSize : Word
  prints : List Word
  calls : List (Word × Word)
  deriving DecidableEq, Repr

/-- The status port: "While `running` the status port shows only `mode = running`" (R171). -/
structure Status where
  mode : Mode
  detail : Option StatusDetail
  deriving DecidableEq, Repr

/-- Read the status port. -/
def status (s : State) : Status where
  mode := s.mode
  detail :=
    if s.mode = .running then none
    else some
      { fault := s.fault, pc := s.pc, reg := s.reg, stkBottomFirst := s.stk.reverse, progSize := s.progSize
        prints := s.prints, calls := s.calls }

/-- The host's rendering of a printed word, its unsigned decimal numeral (R167; log 16). -/
def renderPrinted (v : Word) : String :=
  Nat.repr v.toNat

/-! ### The `run` composite -/

/-- How a run that has ended went (R172, R222). -/
inductive RunOutcome
  | halted
  | fault (kind : FaultKind)
  deriving DecidableEq, Repr

/-- The outcome of a run that has ended: `Halted` when `fault = none`, `Fault(kind)` otherwise (R172). -/
def runOutcome (s : State) : RunOutcome :=
  match s.fault with
  | none => .halted
  | some r => .fault r.kind

/-- Let the engine step until it is halted, at most `fuel` steps (R98; log 17); `none` when it is still running then. -/
def stepUntilHalted : Nat → State → Option State
  | 0, s => if s.mode = .halted then some s else none
  | fuel + 1, s =>
    if s.mode = .halted then some s
    else
      match step s with
      | .next t => stepUntilHalted fuel t
      | .fault _ => none
      | .refused _ => none

/-- What `run(binary)` gives back within `fuel` steps. -/
inductive RunResult (α : Type)
  | loadError
  | stillRunning
  | exited (status : α)
  deriving DecidableEq, Repr

/-- `run(binary) -> exit-status` (R172): `reset`, `load`, `start`, step until halted. The exit-status mapping is open, so it
is an argument (D22; log 14). -/
def runBinary {α : Type} (exitStatusOf : RunOutcome → α) (fuel : Nat) (binary : Option (List Byte)) (s : State) :
    RunResult α :=
  let fresh := (hostOp .reset s).1
  match hostOp (.load binary) fresh with
  | (loaded, .ok) =>
    match stepUntilHalted fuel (hostOp .start loaded).1 with
    | some t => .exited (exitStatusOf (runOutcome t))
    | none => .stillRunning
  | (_, .loadError) => .loadError
  | (_, .refused) => .loadError

end Sys2Proof.Machine
end

