-- ==== Sys2Proof/Machine/Session.lean ====
section
/-! DEFINITION. The engine together with its host: steps, host operations and native calls in the order in which they may
happen (R90, R165, R169, R173). -/

namespace Sys2Proof.Machine

/-- The engine and whether a native call has been sent whose completion the host has not signalled (R169; log 8). -/
structure Session where
  machine : State
  awaiting : Bool
  deriving DecidableEq, Repr

/-- What can happen next: a step of the engine, an operation of the host, or the completion of a native call. -/
inductive Event
  | engineStep
  | host (op : HostOp)
  | complete
  deriving DecidableEq, Repr

/-- The step sent a native call: its stream has grown (R150, R168). -/
def sentCall (s t : State) : Bool :=
  decide (s.calls.length < t.calls.length)

/-- What follows an event, with the answer to a host operation; `none` where the spec has no such transition: a step while
not running (R90) or while a call is in progress (R169), a host operation during a native call (R165, R169, R173; log 18), a
completion with no call in progress. The host may act between any two steps (log 13). -/
def Session.next (q : Session) : Event → Option (Session × Option Answer)
  | .engineStep =>
    if q.awaiting ∨ q.machine.mode ≠ .running then none
    else
      match step q.machine with
      | .next t => some ({ machine := t, awaiting := sentCall q.machine t }, none)
      | .fault _ => none
      | .refused _ => none
  | .host op =>
    if q.awaiting then none
    else some ({ q with machine := (hostOp op q.machine).1 }, some (hostOp op q.machine).2)
  | .complete => if q.awaiting then some ({ q with awaiting := false }, none) else none

/-- A sequence of events, each possible where it stands. -/
def Session.run : Session → List Event → Option Session
  | q, [] => some q
  | q, e :: events =>
    match q.next e with
    | some (q', _) => Session.run q' events
    | none => none

/-- A freshly constructed engine with its host (R210). -/
def Session.fresh : Session where
  machine := State.reset
  awaiting := false

end Sys2Proof.Machine
end

