-- ==== Sys2Proof/Safety.lean ====
section
/-! DEFINITION. What a legal state is, and what it means for a run to have ended well. -/

namespace Sys2Proof.Machine

/-- The program memory is in its canonical form and lists nothing at or above `PROG_SIZE` (R40). -/
def State.progOk (s : State) : Prop :=
  Memory.wf s.prog = true ∧ ∀ c ∈ s.prog, c.1 < s.progSize.toNat

/-- The `info` field each kind of fault records (R28, R181 to R186). -/
def FaultRecord.infoOk (r : FaultRecord) : Prop :=
  match r.kind with
  | .invalidOpcode => 25 ≤ r.info.toNat ∧ r.info.toNat ≤ 255
  | .invalidNativeIndex => Config.ncall ≤ r.info.toNat
  | .stackUnderflow | .divideByZero | .fetchOutOfBounds | .stackOverflow => r.info = 0#16

/-- A fault record, once written, belongs to a halted engine and shows the state the fault left (R28, R190); on this hardware
it is never `StackOverflow` (R186). -/
def State.faultOk (s : State) : Prop :=
  ∀ r, s.fault = some r →
    s.mode = .halted ∧ r.code = r.kind.code ∧ r.pc = s.pc ∧ r.reg = s.reg ∧ r.progSize = s.progSize ∧ r.infoOk ∧
      r.kind ≠ .stackOverflow

/-- An engine not yet started has its reset values except for the program and a preloaded `pc` (R162, R163, R211). -/
def State.idleOk (s : State) : Prop :=
  s.mode = .idle → s.reg = 0#16 ∧ s.stk = [] ∧ s.fault = none ∧ s.prints = [] ∧ s.calls = []

/-- A started engine has a program (R164). -/
def State.startedOk (s : State) : Prop :=
  s.mode ≠ .idle → s.progSize ≠ 0#16

/-- Every native call that was sent named an entry of the table (R150, R168). -/
def State.callsOk (s : State) : Prop :=
  ∀ c ∈ s.calls, c.1.toNat < Config.ncall

/-- The invariant of the machine. -/
structure State.Inv (s : State) : Prop where
  prog : s.progOk
  fault : s.faultOk
  idle : s.idleOk
  started : s.startedOk
  calls : s.callsOk

/-- The invariant of the machine with its host: the machine's own, and a native call is waited for only while running (R169). That
the wait is a bit beside the state is the model's own form (log 8). -/
structure Session.Inv (q : Session) : Prop where
  machine : q.machine.Inv
  awaiting : q.awaiting = true → q.machine.mode = .running

/-- "A run has ended when `mode = halted`" (R222). -/
def State.hasEnded (s : State) : Prop :=
  s.mode = .halted

/-- "It has ended well when, in addition, `fault = none`" (R222). -/
def State.endedWell (s : State) : Prop :=
  s.mode = .halted ∧ s.fault = none

/-- "It has ended badly when `fault ≠ none`" (R222). -/
def State.endedBadly (s : State) : Prop :=
  s.mode = .halted ∧ s.fault ≠ none

/-- How many words an instruction needs on the stack: the `StackUnderflow` column of R189. -/
def wordsNeeded : Instr → Nat
  | .nop | .jmp _ | .halt | .push _ | .load => 0
  | .pop | .neg | .print | .jmpz _ | .jmpnz _ | .call _ => 1
  | .add | .sub | .mul | .div | .mod | .xor | .or | .and | .equ | .nequ | .gt | .gteq | .lt | .lteq => 2

end Sys2Proof.Machine
end

