-- ==== Sys2Proof/Certificates/Slice0/Obligations.lean ====
section
/-! DEFINITION. The statements for the provers. `s.enterFault kind info` is the state a fault leaves; its fields are stated by
`Obligations.FaultEntryWritesTheRecordAndHalts`. In every stack written here the first word is the top, the word the rules
call `a`; the second is `b`. An equation with a record update says at once that the instruction completes, its result, its
`pc`, and that nothing else changes. -/

open Sys2Proof Sys2Proof.Machine

/-! ### Reset, encoding, fetch -/

/-- R34, R210: the reset values, reached from any state, and accepted (not refused) in every mode. -/
def Obligations.ResetGivesTheListedValues : Prop :=
  (State.reset.pc = 0#16 ∧ State.reset.reg = 0#16 ∧ State.reset.stk = [] ∧ State.reset.mode = .idle ∧
    State.reset.fault = none ∧ State.reset.progSize = 0#16 ∧ (∀ a, State.reset.readByte a = none) ∧
    State.reset.prints = [] ∧ State.reset.calls = []) ∧
  (∀ s : State, (hostOp .reset s).1 = State.reset ∧ (hostOp .reset s).2 ≠ .refused)

/-- The bytes at `pc` decide what a step of a running engine does: where an instruction's encoding stands there, the step is
`exec` of that instruction (R91 to R94); `exec` itself includes the advance of `pc`. -/
def Obligations.StepRunsTheInstructionAtPc : Prop :=
  ∀ (s : State) (i : Instr), s.mode = .running →
    (∀ (k : Nat) (b : Byte), (encode i)[k]? = some b → s.readByte (s.pc.toNat + k) = some b) →
    fetch s = .instr i ∧ step s = exec i s

/-- Words of every family, written out from R61 and R66: one byte for arity 0, opcode, low byte, high byte for arity 1. -/
def Obligations.WrittenOutWordsDecode : Prop :=
  decode [0b00000001#8, 0x34#8, 0x12#8] = .instr (.push 0x1234#16) ∧
  decode [0b00000011#8] = .instr .load ∧
  decode [0b00001100#8] = .instr .sub ∧
  decode [0b00001001#8] = .instr .lt ∧
  decode [0b00010101#8, 0x02#8, 0x01#8] = .instr (.jmpz 258#16) ∧
  decode [0b00000100#8, 0xFF#8, 0x00#8] = .instr (.call 255#16) ∧
  decode [0b00011000#8] = .instr .halt ∧
  decode [0b00011001#8] = .invalidOpcode 0x19#8 ∧
  decode [0b00000001#8, 0x05#8] = .outOfBounds

/-- R60 to R63, R80: decoding the encoding of any instruction, whatever bytes follow it, gives that instruction with its whole
operand; and the encoding is `1 + 2·arity` bytes long. -/
def Obligations.DecodeOfEncodeIsTheInstruction : Prop :=
  ∀ (i : Instr) (tail : List Byte),
    decode (encode i ++ tail) = .instr i ∧ (encode i).length = 1 + 2 * i.opcode.arity

/-- R62, R69, R73: what a byte string decodes to is decided by its first bytes alone, and the three answers exclude each other:
an instruction exactly when the string begins with that instruction's encoding, an illegal opcode exactly when the first byte
is 25 or more. -/
def Obligations.DecodingReadsExactlyTheEncoding : Prop :=
  ∀ (bytes : List Byte) (i : Instr) (b : Byte),
    (decode bytes = .instr i ↔ (encode i).isPrefixOf bytes = true) ∧
    (decode bytes = .invalidOpcode b ↔ bytes.head? = some b ∧ 25 ≤ b.toNat)

/-- R68: the byte streams that are "a sum of whole instruction encodings" are exactly the encodings of sequences of instructions,
one after the other. -/
def Obligations.EncodedProgramsAreWholeInstructions : Prop :=
  ∀ bytes : List Byte, wholeInstructions bytes = true ↔ ∃ is : List Instr, bytes = is.flatMap encode

/-- R91, R92: the stages before the execute stage, in their order. The opcode byte is read at `pc` if `pc` is below `PROG_SIZE`;
it is looked up; for arity 1 the operand's two bytes must also lie below `PROG_SIZE`, and the operand is read from them; then the
instruction found is executed. -/
def Obligations.FetchAndDecodeFollowTheStages : Prop :=
  ∀ s : State, s.mode = .running →
    (s.progSize.toNat ≤ s.pc.toNat → step s = .next (s.enterFault .fetchOutOfBounds 0#16)) ∧
    (s.pc.toNat < s.progSize.toNat → ∃ b, s.readByte s.pc.toNat = some b) ∧
    (∀ b : Byte, s.readByte s.pc.toNat = some b →
      (decodeByte b = none → step s = .next (s.enterFault .invalidOpcode (BitVec.ofNat 16 b.toNat))) ∧
      (∀ o : Opcode, decodeByte b = some o → o.arity = 0 →
        ∃ i : Instr, i.opcode = o ∧ i.operand = none ∧ step s = exec i s) ∧
      (∀ o : Opcode, decodeByte b = some o → o.arity = 1 → s.progSize.toNat < s.pc.toNat + 3 →
        step s = .next (s.enterFault .fetchOutOfBounds 0#16)) ∧
      (∀ o : Opcode, decodeByte b = some o → o.arity = 1 → s.pc.toNat + 3 ≤ s.progSize.toNat →
        ∃ (i : Instr) (lo hi : Byte),
          s.readByte (s.pc.toNat + 1) = some lo ∧ s.readByte (s.pc.toNat + 2) = some hi ∧
          i.opcode = o ∧ i.operand = some (BitVec.ofNat 16 (lo.toNat + 256 * hi.toNat)) ∧ step s = exec i s))

/-- R69: an opcode byte of 25 or more. -/
def Obligations.IllegalOpcodeByteFaults : Prop :=
  ∀ (s : State) (b : Byte), s.mode = .running → s.readByte s.pc.toNat = some b → 25 ≤ b.toNat →
    step s = .next (s.enterFault .invalidOpcode (BitVec.ofNat 16 b.toNat))

/-- R73: an opcode of arity 1 with fewer than two bytes after it, whatever the stack holds (so before any `StackUnderflow`). -/
def Obligations.TruncatedInstructionFaults : Prop :=
  ∀ (s : State) (b : Byte), s.mode = .running → s.readByte s.pc.toNat = some b →
    (b = 0x01#8 ∨ b = 0x04#8 ∨ b = 0x14#8 ∨ b = 0x15#8 ∨ b = 0x16#8) → s.progSize.toNat < s.pc.toNat + 3 →
    step s = .next (s.enterFault .fetchOutOfBounds 0#16)

/-- R23: where a fetch succeeds the whole instruction lies below `PROG_SIZE`, and the advanced `pc` is the exact sum. -/
def Obligations.PcNeverWraps : Prop :=
  ∀ (s : State) (i : Instr), fetch s = .instr i →
    s.pc.toNat + i.size ≤ s.progSize.toNat ∧ s.progSize.toNat ≤ 65535 ∧
      (s.advance i.opcode).pc.toNat = s.pc.toNat + i.size

/-! ### The instructions -/

/-- R100, with R25's rule for a finite stack and the corner case of a `PUSH` whose operand runs past the end. -/
def Obligations.PushPushesItsOperand : Prop :=
  (∀ imm : Word, encode (.push imm) = [0x01#8, BitVec.ofNat 8 imm.toNat, BitVec.ofNat 8 (imm.toNat / 256)]) ∧
  (∀ (s : State) (imm : Word), exec (.push imm) s = .next { s with pc := s.pc + 3#16, stk := imm :: s.stk }) ∧
  (∀ (s : State) (imm : Word) (depth : Nat), s.stk.length = depth →
    pushWith (some depth) .push imm s = .next (s.enterFault .stackOverflow 0#16)) ∧
  (∀ s : State, s.mode = .running → s.readByte s.pc.toNat = some 0x01#8 → s.progSize.toNat < s.pc.toNat + 3 →
    step s = .next (s.enterFault .fetchOutOfBounds 0#16))

/-- R101. -/
def Obligations.PopMovesTheTopIntoReg : Prop :=
  encode .pop = [0x02#8] ∧
  (∀ (s : State) (a : Word) (rest : List Word), s.stk = a :: rest →
    exec .pop s = .next { s with pc := s.pc + 1#16, reg := a, stk := rest }) ∧
  (∀ s : State, s.stk.length < 1 → exec .pop s = .next (s.enterFault .stackUnderflow 0#16))

/-- R102, with R25's rule for a finite stack. -/
def Obligations.LoadPushesReg : Prop :=
  encode .load = [0x03#8] ∧
  (∀ s : State, exec .load s = .next { s with pc := s.pc + 1#16, stk := s.reg :: s.stk }) ∧
  (∀ (s : State) (depth : Nat), s.stk.length = depth →
    pushWith (some depth) .load s.reg s = .next (s.enterFault .stackOverflow 0#16))

/-- R114. -/
def Obligations.AddWrapsTheSum : Prop :=
  encode .add = [0x0B#8] ∧
  (∀ (s : State) (a b : Word) (rest : List Word), s.stk = a :: b :: rest →
    exec .add s =
      .next { s with pc := s.pc + 1#16, stk := BitVec.ofNat 16 ((a.toNat + b.toNat) % 65536) :: rest }) ∧
  (∀ s : State, s.stk.length < 2 → exec .add s = .next (s.enterFault .stackUnderflow 0#16))

/-- R115: the word under the top minus the top; a difference below 0 has 65536 added. -/
def Obligations.SubTakesTheTopFromTheWordUnderIt : Prop :=
  encode .sub = [0x0C#8] ∧
  (∀ (s : State) (a b : Word) (rest : List Word), s.stk = a :: b :: rest →
    exec .sub s =
      .next { s with
        pc := s.pc + 1#16
        stk := BitVec.ofNat 16 (if a.toNat ≤ b.toNat then b.toNat - a.toNat else 65536 + b.toNat - a.toNat) :: rest }) ∧
  (∀ s : State, s.stk.length < 2 → exec .sub s = .next (s.enterFault .stackUnderflow 0#16))

/-- R116. -/
def Obligations.MulKeepsTheLowHalf : Prop :=
  encode .mul = [0x0D#8] ∧
  (∀ (s : State) (a b : Word) (rest : List Word), s.stk = a :: b :: rest →
    exec .mul s =
      .next { s with pc := s.pc + 1#16, stk := BitVec.ofNat 16 (a.toNat * b.toNat % 65536) :: rest }) ∧
  (∀ s : State, s.stk.length < 2 → exec .mul s = .next (s.enterFault .stackUnderflow 0#16))

/-- R117: the divisor is the top word. -/
def Obligations.DivDividesByTheTop : Prop :=
  encode .div = [0x0E#8] ∧
  (∀ (s : State) (a b : Word) (rest : List Word), s.stk = a :: b :: rest → a ≠ 0#16 →
    ∃ q : Word, exec .div s = .next { s with pc := s.pc + 1#16, stk := q :: rest } ∧
      q.toNat * a.toNat ≤ b.toNat ∧ b.toNat < (q.toNat + 1) * a.toNat) ∧
  (∀ (s : State) (b : Word) (rest : List Word), s.stk = 0#16 :: b :: rest →
    exec .div s = .next (s.enterFault .divideByZero 0#16)) ∧
  (∀ s : State, s.stk.length < 2 → exec .div s = .next (s.enterFault .stackUnderflow 0#16))

/-- R118, C1: the dividend is the top word, the divisor the word under it. -/
def Obligations.ModTakesTheTopModuloTheWordUnderIt : Prop :=
  encode .mod = [0x11#8] ∧
  (∀ (s : State) (a b : Word) (rest : List Word), s.stk = a :: b :: rest → b ≠ 0#16 →
    ∃ r : Word, exec .mod s = .next { s with pc := s.pc + 1#16, stk := r :: rest } ∧
      r.toNat < b.toNat ∧ ∃ q : Nat, a.toNat = q * b.toNat + r.toNat) ∧
  (∀ (s : State) (a : Word) (rest : List Word), s.stk = a :: 0#16 :: rest →
    exec .mod s = .next (s.enterFault .divideByZero 0#16)) ∧
  (∀ s : State, s.stk.length < 2 → exec .mod s = .next (s.enterFault .stackUnderflow 0#16))

/-- R119, R120, R121: bit `i` of the result from bits `i` of the operands, for `i = 0..15`. -/
def Obligations.LogicInstructionsWorkBitByBit : Prop :=
  (encode .xor = [0x0F#8] ∧ encode .or = [0x10#8] ∧ encode .and = [0x13#8]) ∧
  (∀ (s : State) (a b : Word) (rest : List Word), s.stk = a :: b :: rest →
    ∃ x o n : Word,
      exec .xor s = .next { s with pc := s.pc + 1#16, stk := x :: rest } ∧
      exec .or s = .next { s with pc := s.pc + 1#16, stk := o :: rest } ∧
      exec .and s = .next { s with pc := s.pc + 1#16, stk := n :: rest } ∧
      ∀ i : Nat, i < 16 →
        (x.getLsbD i = true ↔ a.getLsbD i ≠ b.getLsbD i) ∧
        (o.getLsbD i = true ↔ a.getLsbD i = true ∨ b.getLsbD i = true) ∧
        (n.getLsbD i = true ↔ a.getLsbD i = true ∧ b.getLsbD i = true)) ∧
  (∀ s : State, s.stk.length < 2 →
    exec .xor s = .next (s.enterFault .stackUnderflow 0#16) ∧
    exec .or s = .next (s.enterFault .stackUnderflow 0#16) ∧
    exec .and s = .next (s.enterFault .stackUnderflow 0#16))

/-- R122: the complement `65535 − a`. -/
def Obligations.NegComplementsTheTop : Prop :=
  encode .neg = [0x12#8] ∧
  (∀ (s : State) (a : Word) (rest : List Word), s.stk = a :: rest →
    exec .neg s = .next { s with pc := s.pc + 1#16, stk := BitVec.ofNat 16 (65535 - a.toNat) :: rest }) ∧
  (∀ s : State, s.stk.length < 1 → exec .neg s = .next (s.enterFault .stackUnderflow 0#16))

/-- R131. -/
def Obligations.EquTestsEquality : Prop :=
  encode .equ = [0x05#8] ∧
  (∀ (s : State) (a b : Word) (rest : List Word), s.stk = a :: b :: rest →
    exec .equ s = .next { s with pc := s.pc + 1#16, stk := (if a = b then 1#16 else 0#16) :: rest }) ∧
  (∀ s : State, s.stk.length < 2 → exec .equ s = .next (s.enterFault .stackUnderflow 0#16))

/-- R132. -/
def Obligations.NequTestsInequality : Prop :=
  encode .nequ = [0x06#8] ∧
  (∀ (s : State) (a b : Word) (rest : List Word), s.stk = a :: b :: rest →
    exec .nequ s = .next { s with pc := s.pc + 1#16, stk := (if a = b then 0#16 else 1#16) :: rest }) ∧
  (∀ s : State, s.stk.length < 2 → exec .nequ s = .next (s.enterFault .stackUnderflow 0#16))

/-- R133, C1: unsigned, the top is the left-hand side. -/
def Obligations.GtTestsWhetherTheTopIsGreater : Prop :=
  encode .gt = [0x07#8] ∧
  (∀ (s : State) (a b : Word) (rest : List Word), s.stk = a :: b :: rest →
    exec .gt s =
      .next { s with pc := s.pc + 1#16, stk := (if b.toNat < a.toNat then 1#16 else 0#16) :: rest }) ∧
  (∀ s : State, s.stk.length < 2 → exec .gt s = .next (s.enterFault .stackUnderflow 0#16))

/-- R134, C1. -/
def Obligations.GteqTestsWhetherTheTopIsNotLess : Prop :=
  encode .gteq = [0x08#8] ∧
  (∀ (s : State) (a b : Word) (rest : List Word), s.stk = a :: b :: rest →
    exec .gteq s =
      .next { s with pc := s.pc + 1#16, stk := (if b.toNat ≤ a.toNat then 1#16 else 0#16) :: rest }) ∧
  (∀ s : State, s.stk.length < 2 → exec .gteq s = .next (s.enterFault .stackUnderflow 0#16))

/-- R135, C1. -/
def Obligations.LtTestsWhetherTheTopIsLess : Prop :=
  encode .lt = [0x09#8] ∧
  (∀ (s : State) (a b : Word) (rest : List Word), s.stk = a :: b :: rest →
    exec .lt s =
      .next { s with pc := s.pc + 1#16, stk := (if a.toNat < b.toNat then 1#16 else 0#16) :: rest }) ∧
  (∀ s : State, s.stk.length < 2 → exec .lt s = .next (s.enterFault .stackUnderflow 0#16))

/-- R136, C1. -/
def Obligations.LteqTestsWhetherTheTopIsNotGreater : Prop :=
  encode .lteq = [0x0A#8] ∧
  (∀ (s : State) (a b : Word) (rest : List Word), s.stk = a :: b :: rest →
    exec .lteq s =
      .next { s with pc := s.pc + 1#16, stk := (if a.toNat ≤ b.toNat then 1#16 else 0#16) :: rest }) ∧
  (∀ s : State, s.stk.length < 2 → exec .lteq s = .next (s.enterFault .stackUnderflow 0#16))

/-- R141, R140: the target is the operand itself, whatever it is; one at or beyond `PROG_SIZE` faults at the next step. -/
def Obligations.JmpSetsPcToItsOperand : Prop :=
  (∀ imm : Word, encode (.jmp imm) = [0x14#8, BitVec.ofNat 8 imm.toNat, BitVec.ofNat 8 (imm.toNat / 256)]) ∧
  (∀ (s : State) (imm : Word), exec (.jmp imm) s = .next { s with pc := imm }) ∧
  (∀ (s t : State) (imm : Word), s.mode = .running → s.progSize.toNat ≤ imm.toNat → exec (.jmp imm) s = .next t →
    step t = .next (t.enterFault .fetchOutOfBounds 0#16))

/-- R142. -/
def Obligations.JmpzPopsAndBranchesOnZero : Prop :=
  (∀ imm : Word, encode (.jmpz imm) = [0x15#8, BitVec.ofNat 8 imm.toNat, BitVec.ofNat 8 (imm.toNat / 256)]) ∧
  (∀ (s : State) (imm c : Word) (rest : List Word), s.stk = c :: rest →
    exec (.jmpz imm) s = .next { s with pc := if c = 0#16 then imm else s.pc + 3#16, stk := rest }) ∧
  (∀ (s : State) (imm : Word), s.stk.length < 1 →
    exec (.jmpz imm) s = .next (s.enterFault .stackUnderflow 0#16))

/-- R143. -/
def Obligations.JmpnzPopsAndBranchesOnNonzero : Prop :=
  (∀ imm : Word, encode (.jmpnz imm) = [0x16#8, BitVec.ofNat 8 imm.toNat, BitVec.ofNat 8 (imm.toNat / 256)]) ∧
  (∀ (s : State) (imm c : Word) (rest : List Word), s.stk = c :: rest →
    exec (.jmpnz imm) s = .next { s with pc := if c = 0#16 then s.pc + 3#16 else imm, stk := rest }) ∧
  (∀ (s : State) (imm : Word), s.stk.length < 1 →
    exec (.jmpnz imm) s = .next (s.enterFault .stackUnderflow 0#16))

/-- R150. `NCALL` is open: the statement holds for every value of it, and index 0 is always below it. The last clause is the
wait: a session that runs a `CALL` waits for its completion (R169). That the call is over within the step, and that the wait is a
bit beside the state, is the model's own form (log 8), so the basis is derived. -/
def Obligations.CallPopsItsArgumentAndSendsIt : Prop :=
  (∀ imm : Word, encode (.call imm) = [0x04#8, BitVec.ofNat 8 imm.toNat, BitVec.ofNat 8 (imm.toNat / 256)]) ∧
  0 < Config.ncall ∧
  (∀ (s : State) (imm v : Word) (rest : List Word), s.stk = v :: rest → imm.toNat < Config.ncall →
    exec (.call imm) s = .next { s with pc := s.pc + 3#16, stk := rest, calls := s.calls ++ [(imm, v)] }) ∧
  (∀ (s : State) (imm : Word), exec (.call imm) s = callWith Config.ncall imm s) ∧
  (∀ (n : Nat) (s : State) (imm v : Word) (rest : List Word), s.stk = v :: rest → n ≤ imm.toNat →
    callWith n imm s = .next (s.enterFault .invalidNativeIndex imm)) ∧
  (∀ (n : Nat) (s : State) (imm : Word), s.stk.length < 1 →
    callWith n imm s = .next (s.enterFault .stackUnderflow 0#16)) ∧
  (∀ (q : Session) (imm v : Word) (rest : List Word), q.awaiting = false → q.machine.mode = .running →
    fetch q.machine = .instr (.call imm) → q.machine.stk = v :: rest → imm.toNat < Config.ncall →
    ∃ t, step q.machine = .next t ∧ q.next .engineStep = some ({ machine := t, awaiting := true }, none))

/-- R151, and R167's rendering of the word as its unsigned decimal numeral: digits only, at least one of them, that are read
as a literal of exactly that value, `65535` included. That the text has nothing beside the digits is the model's reading (log 16),
so the basis is derived. -/
def Obligations.PrintEmitsTheTopAndKeepsIt : Prop :=
  encode .print = [0x17#8] ∧
  (∀ (s : State) (a : Word) (rest : List Word), s.stk = a :: rest →
    exec .print s = .next { s with pc := s.pc + 1#16, prints := s.prints ++ [a] }) ∧
  (∀ a : Word, (renderPrinted a).toList.all Assembler.isDigit = true ∧
    Assembler.readOperand (renderPrinted a).toList = .literal a.toNat) ∧
  (∀ s : State, s.stk.length < 1 → exec .print s = .next (s.enterFault .stackUnderflow 0#16))

/-- R152. That `pc` stays at the byte after the `HALT` is the rule's own derivation from R93, so the basis is derived. The last
clause: nothing more is fetched (R90), and `halted` is left only by `reset`, every other operation being refused (R26, R161). -/
def Obligations.HaltStopsTheEngine : Prop :=
  encode .halt = [0x18#8] ∧
  (∀ s : State, exec .halt s = .next { s with pc := s.pc + 1#16, mode := .halted }) ∧
  (∀ s t : State, exec .halt s = .next t →
    Session.next { machine := t, awaiting := false } .engineStep = none ∧
      ∀ op : HostOp, op ≠ .reset → hostOp op t = (t, .refused))

/-- R153. A zero byte is a `NOP`, whatever follows it. -/
def Obligations.NopOnlyAdvancesPc : Prop :=
  encode .nop = [0x00#8] ∧
  (∀ s : State, exec .nop s = .next { s with pc := s.pc + 1#16 }) ∧
  (∀ s : State, s.mode = .running → s.readByte s.pc.toNat = some 0x00#8 → step s = .next { s with pc := s.pc + 1#16 })

/-! ### Faults -/

/-- R190, with the codes of R187: fault entry, from the state in which the step began. -/
def Obligations.FaultEntryWritesTheRecordAndHalts : Prop :=
  (∀ (s : State) (k : FaultKind) (info : Word),
    s.enterFault k info =
      { s with
        mode := .halted
        fault := some { kind := k, code := k.code, pc := s.pc, reg := s.reg, progSize := s.progSize, info := info } }) ∧
  FaultKind.invalidOpcode.code = 1 ∧ FaultKind.stackUnderflow.code = 2 ∧ FaultKind.divideByZero.code = 3 ∧
  FaultKind.fetchOutOfBounds.code = 4 ∧ FaultKind.invalidNativeIndex.code = 5 ∧ FaultKind.stackOverflow.code = 6

/-- R95: a step that raises a fault has no effect other than fault entry, whatever the instruction. -/
def Obligations.FaultsArePrecise : Prop :=
  ∀ (s t : State) (r : FaultRecord), s.mode = .running → s.fault = none → step s = .next t → t.fault = some r →
    t = { s with mode := .halted, fault := some r } ∧
      r.code = r.kind.code ∧ r.pc = s.pc ∧ r.reg = s.reg ∧ r.progSize = s.progSize

/-- R182: the instructions that raise `StackUnderflow` and exactly when; the stack stays as it was. -/
def Obligations.StackUnderflowExactlyWhenWordsAreMissing : Prop :=
  ∀ (i : Instr) (s t : State), s.fault = none → exec i s = .next t →
    ((∃ r, t.fault = some r ∧ r.kind = .stackUnderflow) ↔ s.stk.length < wordsNeeded i) ∧
    (∀ r, t.fault = some r → r.kind = .stackUnderflow → r.info = 0#16 ∧ t.stk = s.stk)

/-- R183: only `DIV` and `MOD`, exactly when the divisor is 0. -/
def Obligations.DivideByZeroExactlyOnZeroDivisor : Prop :=
  ∀ (i : Instr) (s t : State), s.fault = none → exec i s = .next t →
    ((∃ r, t.fault = some r ∧ r.kind = .divideByZero) ↔
      (i = .div ∧ ∃ b rest, s.stk = 0#16 :: b :: rest) ∨ (i = .mod ∧ ∃ a rest, s.stk = a :: 0#16 :: rest)) ∧
    (∀ r, t.fault = some r → r.kind = .divideByZero → r.info = 0#16 ∧ t.stk = s.stk)

/-- R185, with the priority of R188: only `CALL`, exactly when its operand is not below `NCALL` and the stack is not empty;
the argument word is not popped. -/
def Obligations.InvalidNativeIndexExactlyOnBadIndex : Prop :=
  ∀ (i : Instr) (s t : State), s.fault = none → exec i s = .next t →
    ((∃ r, t.fault = some r ∧ r.kind = .invalidNativeIndex) ↔
      ∃ imm, i = .call imm ∧ Config.ncall ≤ imm.toNat ∧ s.stk ≠ []) ∧
    (∀ r, t.fault = some r → r.kind = .invalidNativeIndex → i = .call r.info ∧ t.stk = s.stk)

/-- R186, R189: on this hardware's unbounded stack no instruction raises `StackOverflow`, and the two kinds of the fetch and
decode stages are raised by no instruction; on a stack of finite capacity a push at capacity faults and below it pushes; and
every instruction but `PUSH` and `LOAD` leaves the depth the same or smaller. -/
def Obligations.StackOverflowOnlyWithAFiniteDepth : Prop :=
  (∀ (i : Instr) (s t : State) (r : FaultRecord), s.fault = none → exec i s = .next t → t.fault = some r →
    r.kind ≠ .stackOverflow ∧ r.kind ≠ .invalidOpcode ∧ r.kind ≠ .fetchOutOfBounds) ∧
  (∀ (o : Opcode) (v : Word) (s : State) (depth : Nat),
    (s.stk.length = depth → pushWith (some depth) o v s = .next (s.enterFault .stackOverflow 0#16)) ∧
    (s.stk.length < depth →
      ∃ t, pushWith (some depth) o v s = .next t ∧ t.stk = v :: s.stk ∧ t.stk.length ≤ depth ∧ t.fault = s.fault)) ∧
  (∀ (i : Instr) (s t : State), exec i s = .next t → (∀ imm, i ≠ .push imm) → i ≠ .load →
    t.stk.length ≤ s.stk.length)

/-! ### The whole machine -/

/-- R90: in `idle` and in `halted` the engine takes no step. The model answers the unchanged state there (its own choice of
answer, log 9). -/
def Obligations.NoStepUnlessRunning : Prop :=
  ∀ s : State, s.mode ≠ .running → step s = .next s

/-- No step of any state stops without a next state: every runtime fault has an entry, and every instruction has an effect. -/
def Obligations.EveryStepAnswersANextState : Prop :=
  ∀ s : State, ∃ t, step s = .next t

/-- R96: the three outcomes of a step. -/
def Obligations.StepHasOneOfThreeOutcomes : Prop :=
  ∀ s t : State, s.mode = .running → s.fault = none → step s = .next t →
    (t.mode = .running ∧ t.fault = none ∧ fetch s ≠ .instr .halt) ∨
    (t.mode = .halted ∧ t.fault = none ∧ fetch s = .instr .halt) ∨
    (t.mode = .halted ∧ t.fault ≠ none ∧ fetch s ≠ .instr .halt)

/-- R24: `POP` is the only instruction that writes `reg` and `LOAD` the only one that reads it: with another value in `reg`,
any other instruction that does not fault does the same, and leaves that value unless it is `POP`. -/
def Obligations.OnlyPopWritesRegAndOnlyLoadReadsIt : Prop :=
  (∀ (i : Instr) (s t : State), exec i s = .next t → i ≠ .pop → t.reg = s.reg) ∧
  (∀ (i : Instr) (s t : State) (v : Word), i ≠ .load → s.fault = none → exec i s = .next t → t.fault = none →
    exec i { s with reg := v } = .next { t with reg := if i = .pop then t.reg else v })

/-- R29, R48, R54: no step changes the program; every byte of the program space reads after it as before. -/
def Obligations.NoStepChangesTheProgram : Prop :=
  ∀ s t : State, step s = .next t →
    t.prog = s.prog ∧ t.progSize = s.progSize ∧ ∀ a : Nat, t.readByte a = s.readByte a

/-- R31, R20: both streams only grow, at their end, and only `PRINT` writes the one and `CALL` the other, one entry each, with
the top word. -/
def Obligations.OnlyPrintAndCallWriteTheStreams : Prop :=
  ∀ (i : Instr) (s t : State), exec i s = .next t →
    (t.prints = s.prints ∨ (i = .print ∧ ∃ v, s.stk.head? = some v ∧ t.prints = s.prints ++ [v])) ∧
    (t.calls = s.calls ∨ ∃ imm v, i = .call imm ∧ s.stk.head? = some v ∧ t.calls = s.calls ++ [(imm, v)])

/-- R97: the outcome, the new `pc`, `reg`, `stk` and the events appended to the streams depend on `Prog`, `PROG_SIZE`, `pc`,
`reg` and `stk` alone: a running engine with other streams does the same and appends the same. -/
def Obligations.StepDoesNotReadTheStreams : Prop :=
  ∀ s : State, s.mode = .running →
    ∃ (t : State) (ps : List Word) (cs : List (Word × Word)),
      step s = .next t ∧ t.prints = s.prints ++ ps ∧ t.calls = s.calls ++ cs ∧
      ∀ (prints : List Word) (calls : List (Word × Word)),
        step { s with prints := prints, calls := calls } =
          .next { t with prints := prints ++ ps, calls := calls ++ cs }

/-- R144: a branch accepts any target; one at or beyond `PROG_SIZE` makes the next step raise `FetchOutOfBounds`, with the
target as the recorded address. -/
def Obligations.BadBranchTargetFaultsOneStepLater : Prop :=
  ∀ (s : State) (i : Instr) (target : Word), s.mode = .running → s.fault = none → fetch s = .instr i →
    (i = .jmp target ∨ (i = .jmpz target ∧ s.stk.head? = some 0#16) ∨
      (i = .jmpnz target ∧ ∃ c, s.stk.head? = some c ∧ c ≠ 0#16)) →
    ∃ t, step s = .next t ∧ t.pc = target ∧ t.mode = .running ∧ t.fault = none ∧
      (s.progSize.toNat ≤ target.toNat →
        ∃ u r, step t = .next u ∧ u.fault = some r ∧ r.kind = .fetchOutOfBounds ∧ r.pc = target)

/-- R137, on any two operands: each comparison gives 0 or 1; `NEQU`, `GTEQ` and `LTEQ` are the opposites of `EQU`, `LT` and
`GT`; `GT` with the operands swapped is `LT`; and exactly one of `LT`, `EQU`, `GT` gives 1. -/
def Obligations.ComparisonsAreRelated : Prop :=
  ∀ (s : State) (a b : Word) (rest : List Word), s.stk = a :: b :: rest →
    ∃ eq ne gt ge lt le : Word,
      exec .equ s = .next { s with pc := s.pc + 1#16, stk := eq :: rest } ∧
      exec .nequ s = .next { s with pc := s.pc + 1#16, stk := ne :: rest } ∧
      exec .gt s = .next { s with pc := s.pc + 1#16, stk := gt :: rest } ∧
      exec .gteq s = .next { s with pc := s.pc + 1#16, stk := ge :: rest } ∧
      exec .lt s = .next { s with pc := s.pc + 1#16, stk := lt :: rest } ∧
      exec .lteq s = .next { s with pc := s.pc + 1#16, stk := le :: rest } ∧
      exec .gt { s with stk := b :: a :: rest } = .next { s with pc := s.pc + 1#16, stk := lt :: rest } ∧
      ne.toNat = 1 - eq.toNat ∧ ge.toNat = 1 - lt.toNat ∧ le.toNat = 1 - gt.toNat ∧
      lt.toNat + eq.toNat + gt.toNat = 1

/-! ### Invariants -/

/-- The reset state meets the invariant. -/
def Obligations.ResetMeetsTheInvariant : Prop :=
  State.reset.Inv

/-- Every step keeps the invariant, from every state that meets it. -/
def Obligations.EveryStepKeepsTheInvariant : Prop :=
  ∀ s t : State, s.Inv → step s = .next t → t.Inv

/-- A fresh session meets the session's invariant, and every event that is possible in a session that meets it keeps it: a step, a
host operation of any kind (R161 to R165, R210), or the completion of a native call (R169). So it holds whatever the host does. The
waiting bit of the invariant is the model's own form (log 8). -/
def Obligations.EverySessionKeepsTheInvariant : Prop :=
  Session.fresh.Inv ∧
  ∀ (q q' : Session) (e : Event) (a : Option Answer), q.Inv → q.next e = some (q', a) → q'.Inv

/-- R192: after a fault nothing but `reset` changes anything: no step, no other host operation, no completion. -/
def Obligations.AFaultedRunStaysAsItIsUntilReset : Prop :=
  ∀ (events : List Event) (q q' : Session), q.machine.mode = .halted → q.machine.fault ≠ none →
    Event.host .reset ∉ events → q.run events = some q' →
    q'.machine = q.machine ∧ q'.machine.endedBadly ∧ ¬ q'.machine.endedWell

/-! ### The host's side -/

/-- R162. -/
def Obligations.LoadReplacesTheProgramOrFails : Prop :=
  (∀ (s : State) (binary : Option (List Byte)), s.mode ≠ .idle → hostOp (.load binary) s = (s, .refused)) ∧
  ∀ s : State, s.mode = .idle →
    hostOp (.load none) s = (s, .loadError) ∧
    hostOp (.load (some [])) s = (s, .loadError) ∧
    (∀ bytes : List Byte, 65535 < bytes.length → hostOp (.load (some bytes)) s = (s, .loadError)) ∧
    (∀ bytes : List Byte, 0 < bytes.length → bytes.length ≤ 65535 →
      ∃ t, hostOp (.load (some bytes)) s = (t, .ok) ∧ t.progSize.toNat = bytes.length ∧
        (∀ a : Nat, t.readByte a = bytes[a]?) ∧ t = { s with prog := t.prog, progSize := t.progSize })

/-- R163, R164, R165: the three operations that move the engine along, in the modes that accept them and in the others; and a
`stop` may come between any two steps of a session (log 13), but not during a native call. The last is the model's reading of R165
and R169 (log 18), and that an accepted `preload_pc`, `stop` or `reset` is answered `ok` is its choice (log 21), so the basis is
derived. -/
def Obligations.PreloadStartAndStop : Prop :=
  (∀ (s : State) (v : Word), s.mode = .idle → hostOp (.preloadPc v) s = ({ s with pc := v }, .ok)) ∧
  (∀ s : State, s.mode = .idle → 0 < s.progSize.toNat → hostOp .start s = ({ s with mode := .running }, .ok)) ∧
  (∀ s : State, s.mode = .idle → s.progSize.toNat = 0 → hostOp .start s = (s, .refused)) ∧
  (∀ s : State, s.mode = .running → hostOp .stop s = ({ s with mode := .halted }, .ok)) ∧
  (∀ (s : State) (v : Word), s.mode ≠ .idle →
    hostOp (.preloadPc v) s = (s, .refused) ∧ hostOp .start s = (s, .refused)) ∧
  (∀ s : State, s.mode ≠ .running → hostOp .stop s = (s, .refused)) ∧
  (∀ s : State, hostOp .reset s = (State.reset, .ok)) ∧
  (∀ q : Session, q.machine.mode = .running →
    q.next (.host .stop) =
      if q.awaiting then none else some ({ q with machine := { q.machine with mode := .halted } }, some .ok))

/-- R161, R26: an operation offered outside its mode, and any other that is not answered `ok`, changes nothing; and a step or an
operation changes the mode only along the transitions of R26. -/
def Obligations.ModeChangesOnlyAlongTheStateMachine : Prop :=
  (∀ (s : State) (op : HostOp),
    (s.mode ≠ .idle ∧ ((∃ binary, op = .load binary) ∨ (∃ v, op = .preloadPc v) ∨ op = .start)) ∨
      (s.mode ≠ .running ∧ op = .stop) →
    hostOp op s = (s, .refused)) ∧
  (∀ (s : State) (op : HostOp), (hostOp op s).2 ≠ .ok → (hostOp op s).1 = s) ∧
  (∀ (s : State) (op : HostOp), (hostOp op s).1.mode ≠ s.mode →
    (op = .reset ∧ (hostOp op s).1.mode = .idle) ∨
    (op = .start ∧ s.mode = .idle ∧ (hostOp op s).1.mode = .running) ∨
    (op = .stop ∧ s.mode = .running ∧ (hostOp op s).1.mode = .halted)) ∧
  (∀ s t : State, step s = .next t → t.mode ≠ s.mode →
    s.mode = .running ∧ t.mode = .halted ∧
      (fetch s = .instr .halt ∨ ∃ (kind : FaultKind) (info : Word), t = s.enterFault kind info))

/-- R171: the status port, the stack bottom first; while running it shows only the mode. -/
def Obligations.StatusPortShowsTheStateWhenNotRunning : Prop :=
  (∀ s : State, s.mode = .running → status s = { mode := .running, detail := none }) ∧
  (∀ s : State, s.mode ≠ .running →
    ∃ d, status s = { mode := s.mode, detail := some d } ∧ d.fault = s.fault ∧ d.pc = s.pc ∧ d.reg = s.reg ∧
      d.stkBottomFirst.reverse = s.stk ∧ d.progSize = s.progSize ∧ d.prints = s.prints ∧ d.calls = s.calls)

/-- R172: `run` fails without starting where `load` fails; otherwise, when `k` steps from the freshly loaded and started engine
end in a halted state, it gives the exit status of that state's outcome, and while no such state is reached it does not
return. The mapping is any function; the bound on the steps, and the
answer when it is reached, are the model's own form (log 17), so the basis is derived. -/
def Obligations.RunReturnsTheOutcomeOfTheHaltedState : Prop :=
  ∀ (α : Type) (exitStatusOf : RunOutcome → α) (s : State) (fuel : Nat),
    runBinary exitStatusOf fuel none s = .loadError ∧
    runBinary exitStatusOf fuel (some []) s = .loadError ∧
    (∀ bytes : List Byte, 65535 < bytes.length → runBinary exitStatusOf fuel (some bytes) s = .loadError) ∧
    (∀ (bytes : List Byte) (k : Nat) (t : State), 0 < bytes.length → bytes.length ≤ 65535 → k ≤ fuel →
      Sys2Proof.core.run k
          { State.reset with
            mode := .running, prog := Memory.ofBytes bytes, progSize := BitVec.ofNat 16 bytes.length } = .next t →
      (t.mode = .halted →
        runBinary exitStatusOf fuel (some bytes) s =
          .exited (exitStatusOf (match t.fault with | none => .halted | some r => .fault r.kind))) ∧
      (k = fuel → t.mode ≠ .halted → runBinary exitStatusOf fuel (some bytes) s = .stillRunning))

/-- R169: while a native call is in progress the engine takes no step and no host operation has an effect; the completion
brings nothing back; and the engine waits after a step exactly when that step sent a call. That a host operation has no
transition meanwhile is the model's reading (log 18). -/
def Obligations.NothingStepsDuringANativeCall : Prop :=
  (∀ q : Session, q.awaiting = true →
    q.next .engineStep = none ∧ (∀ op, q.next (.host op) = none) ∧
      q.next .complete = some ({ machine := q.machine, awaiting := false }, none)) ∧
  (∀ (q q' : Session), q.next .engineStep = some (q', none) →
    (q'.awaiting = true ↔ q'.machine.calls ≠ q.machine.calls))

/-! ### The line syntax -/

/-- R80, R83: every instruction has a listing line, and the disassembler's line for it assembles to exactly that instruction's
encoding; the line of an unrecognized byte is the literal token. -/
def Obligations.ListingLinesAssembleToTheInstruction : Prop :=
  (∀ i : Instr, ∃ line : List Char,
    Assembler.listingLine (.instr i) = some line ∧ Assembler.assemble [line] = .ok (encode i)) ∧
  (∀ b : Byte, Assembler.listingLine (.invalidOpcode b) = some "INVALID OPCODE".toList)
end

