-- ==== Sys2Proof/Laws/Encoding.lean ====
section
/-! SUPPORT. Laws of the registry, the decoder and the encoder. -/

namespace Sys2Proof

/-- Every opcode is a row of the registry. -/
theorem Opcode.mem_all (o : Opcode) : o ∈ Opcode.all := by
  cases o <;> decide

/-- Each opcode's byte decodes to that opcode: no two rows overlap. -/
@[simp] theorem decodeByte_byte (o : Opcode) : decodeByte o.byte = some o := by
  cases o <;> decide

/-- A byte that decodes is the byte of the opcode found. -/
theorem byte_of_decodeByte {b : Byte} {o : Opcode} (h : decodeByte b = some o) : o.byte = b := by
  simpa using List.find?_some h

/-- A byte is found exactly when it is below 25 (R69). -/
theorem decodeByte_eq_none_iff (b : Byte) : decodeByte b = none ↔ 25 ≤ b.toNat := by
  have hb := b.isLt
  constructor
  · intro h
    by_contra hlt
    have known : ∀ k < 25, ∀ c : Byte, c.toNat = k → decodeByte c ≠ none := by
      intro k hk c hc
      obtain rfl : c = BitVec.ofNat 8 k := BitVec.eq_of_toNat_eq (by simp; omega)
      interval_cases k <;> decide
    exact known b.toNat (by omega) b rfl h
  · intro h
    rw [decodeByte, List.find?_eq_none]
    intro o _ ho
    have hlt : o.byte.toNat < 25 := by cases o <;> decide
    rw [beq_iff_eq] at ho
    subst ho
    omega

/-- The opcode bytes are the positions in the source's list (R64). -/
theorem Opcode.byte_is_position (k : Nat) (o : Opcode) (h : Opcode.all[k]? = some o) : o.byte.toNat = k := by
  have hk : k < 25 := by
    have := (List.getElem?_eq_some_iff.mp h).1
    simpa [Opcode.all] using this
  interval_cases k <;> cases h <;> rfl

@[simp] theorem opcodeOf_mnemonic (o : Opcode) : opcodeOf o.mnemonic = some o := by
  cases o <;> decide

/-- Reading a word as two bytes, least significant first. -/
theorem memRead_two (read : Nat → Option Byte) (a : Nat) :
    memRead read a 2 =
      match read a, read (a + 1) with
      | some lo, some hi => some (lo.toNat + 256 * hi.toNat)
      | _, _ => none := by
  cases h : read a <;> cases h' : read (a + 1) <;> simp [memRead, h, h']

theorem operandBytes_eq (imm : Word) : operandBytes imm = [imm.setWidth 8, (imm >>> 8).setWidth 8] := by
  have h : ∀ k, imm.extractLsb' k 8 = (imm >>> k).setWidth 8 := fun k => by
    ext i; simp
  simp [operandBytes, Config.wordBytes, List.range, List.range.loop, h]

/-- The two operand bytes hold the whole operand. -/
theorem operandBytes_value (imm : Word) :
    BitVec.ofNat 16 ((imm.setWidth 8).toNat + 256 * ((imm >>> 8).setWidth 8).toNat) = imm := by
  apply BitVec.eq_of_toNat_eq
  have := imm.isLt
  simp only [BitVec.toNat_ofNat, BitVec.toNat_setWidth, BitVec.toNat_ushiftRight, Nat.shiftRight_eq_div_pow]
  omega

/-- Nothing of type `Instr` is ill-formed (R70). -/
theorem Instr.wellFormed_all (i : Instr) : i.WellFormed := by
  have word : ∀ imm : Word, imm.toNat < 65536 := fun imm => imm.isLt
  cases i <;>
    simp [Instr.WellFormed, Instr.raw, RawInstr.wellFormed, RawInstr.operandMatchesArity, RawInstr.operandFits,
      Opcode.arity, Opcode.shape, Instr.opcode, Instr.operand, Config.wordBits, Config.wordBytes, word]

/-- An instruction is read back from its written form. -/
theorem Instr.toInstr_raw (i : Instr) : i.raw.toInstr = some i := by
  have h : i.raw.wellFormed = true := i.wellFormed_all
  cases i <;> simp [RawInstr.toInstr, h] <;>
    simp [Instr.raw, Instr.opcode, Instr.operand, Opcode.shape]

theorem Instr.size_pos (i : Instr) : 0 < i.size := by
  unfold Instr.size Opcode.size
  omega

end Sys2Proof
end

