-- ==== Sys2Proof/Laws/State.lean ====
section
/-! SUPPORT. One lemma per field per update of the state, so that no later proof unfolds a record update. -/

namespace Sys2Proof.Machine

variable (s : State)

@[simp] theorem State.advance_pc (o : Opcode) : (s.advance o).pc = s.pc + BitVec.ofNat 16 o.size := rfl
@[simp] theorem State.advance_reg (o : Opcode) : (s.advance o).reg = s.reg := rfl
@[simp] theorem State.advance_stk (o : Opcode) : (s.advance o).stk = s.stk := rfl
@[simp] theorem State.advance_mode (o : Opcode) : (s.advance o).mode = s.mode := rfl
@[simp] theorem State.advance_fault (o : Opcode) : (s.advance o).fault = s.fault := rfl
@[simp] theorem State.advance_prog (o : Opcode) : (s.advance o).prog = s.prog := rfl
@[simp] theorem State.advance_progSize (o : Opcode) : (s.advance o).progSize = s.progSize := rfl
@[simp] theorem State.advance_prints (o : Opcode) : (s.advance o).prints = s.prints := rfl
@[simp] theorem State.advance_calls (o : Opcode) : (s.advance o).calls = s.calls := rfl

@[simp] theorem State.jump_pc (v : Word) : (s.jump v).pc = v := rfl
@[simp] theorem State.jump_reg (v : Word) : (s.jump v).reg = s.reg := rfl
@[simp] theorem State.jump_stk (v : Word) : (s.jump v).stk = s.stk := rfl
@[simp] theorem State.jump_mode (v : Word) : (s.jump v).mode = s.mode := rfl
@[simp] theorem State.jump_fault (v : Word) : (s.jump v).fault = s.fault := rfl
@[simp] theorem State.jump_prog (v : Word) : (s.jump v).prog = s.prog := rfl
@[simp] theorem State.jump_progSize (v : Word) : (s.jump v).progSize = s.progSize := rfl
@[simp] theorem State.jump_prints (v : Word) : (s.jump v).prints = s.prints := rfl
@[simp] theorem State.jump_calls (v : Word) : (s.jump v).calls = s.calls := rfl

@[simp] theorem State.setReg_pc (v : Word) : (s.setReg v).pc = s.pc := rfl
@[simp] theorem State.setReg_reg (v : Word) : (s.setReg v).reg = v := rfl
@[simp] theorem State.setReg_stk (v : Word) : (s.setReg v).stk = s.stk := rfl
@[simp] theorem State.setReg_mode (v : Word) : (s.setReg v).mode = s.mode := rfl
@[simp] theorem State.setReg_fault (v : Word) : (s.setReg v).fault = s.fault := rfl
@[simp] theorem State.setReg_prog (v : Word) : (s.setReg v).prog = s.prog := rfl
@[simp] theorem State.setReg_progSize (v : Word) : (s.setReg v).progSize = s.progSize := rfl
@[simp] theorem State.setReg_prints (v : Word) : (s.setReg v).prints = s.prints := rfl
@[simp] theorem State.setReg_calls (v : Word) : (s.setReg v).calls = s.calls := rfl

@[simp] theorem State.setStk_pc (ws : List Word) : (s.setStk ws).pc = s.pc := rfl
@[simp] theorem State.setStk_reg (ws : List Word) : (s.setStk ws).reg = s.reg := rfl
@[simp] theorem State.setStk_stk (ws : List Word) : (s.setStk ws).stk = ws := rfl
@[simp] theorem State.setStk_mode (ws : List Word) : (s.setStk ws).mode = s.mode := rfl
@[simp] theorem State.setStk_fault (ws : List Word) : (s.setStk ws).fault = s.fault := rfl
@[simp] theorem State.setStk_prog (ws : List Word) : (s.setStk ws).prog = s.prog := rfl
@[simp] theorem State.setStk_progSize (ws : List Word) : (s.setStk ws).progSize = s.progSize := rfl
@[simp] theorem State.setStk_prints (ws : List Word) : (s.setStk ws).prints = s.prints := rfl
@[simp] theorem State.setStk_calls (ws : List Word) : (s.setStk ws).calls = s.calls := rfl

@[simp] theorem State.setMode_pc (m : Mode) : (s.setMode m).pc = s.pc := rfl
@[simp] theorem State.setMode_reg (m : Mode) : (s.setMode m).reg = s.reg := rfl
@[simp] theorem State.setMode_stk (m : Mode) : (s.setMode m).stk = s.stk := rfl
@[simp] theorem State.setMode_mode (m : Mode) : (s.setMode m).mode = m := rfl
@[simp] theorem State.setMode_fault (m : Mode) : (s.setMode m).fault = s.fault := rfl
@[simp] theorem State.setMode_prog (m : Mode) : (s.setMode m).prog = s.prog := rfl
@[simp] theorem State.setMode_progSize (m : Mode) : (s.setMode m).progSize = s.progSize := rfl
@[simp] theorem State.setMode_prints (m : Mode) : (s.setMode m).prints = s.prints := rfl
@[simp] theorem State.setMode_calls (m : Mode) : (s.setMode m).calls = s.calls := rfl

@[simp] theorem State.emitPrint_pc (v : Word) : (s.emitPrint v).pc = s.pc := rfl
@[simp] theorem State.emitPrint_reg (v : Word) : (s.emitPrint v).reg = s.reg := rfl
@[simp] theorem State.emitPrint_stk (v : Word) : (s.emitPrint v).stk = s.stk := rfl
@[simp] theorem State.emitPrint_mode (v : Word) : (s.emitPrint v).mode = s.mode := rfl
@[simp] theorem State.emitPrint_fault (v : Word) : (s.emitPrint v).fault = s.fault := rfl
@[simp] theorem State.emitPrint_prog (v : Word) : (s.emitPrint v).prog = s.prog := rfl
@[simp] theorem State.emitPrint_progSize (v : Word) : (s.emitPrint v).progSize = s.progSize := rfl
@[simp] theorem State.emitPrint_prints (v : Word) : (s.emitPrint v).prints = s.prints ++ [v] := rfl
@[simp] theorem State.emitPrint_calls (v : Word) : (s.emitPrint v).calls = s.calls := rfl

@[simp] theorem State.emitCall_pc (i v : Word) : (s.emitCall i v).pc = s.pc := rfl
@[simp] theorem State.emitCall_reg (i v : Word) : (s.emitCall i v).reg = s.reg := rfl
@[simp] theorem State.emitCall_stk (i v : Word) : (s.emitCall i v).stk = s.stk := rfl
@[simp] theorem State.emitCall_mode (i v : Word) : (s.emitCall i v).mode = s.mode := rfl
@[simp] theorem State.emitCall_fault (i v : Word) : (s.emitCall i v).fault = s.fault := rfl
@[simp] theorem State.emitCall_prog (i v : Word) : (s.emitCall i v).prog = s.prog := rfl
@[simp] theorem State.emitCall_progSize (i v : Word) : (s.emitCall i v).progSize = s.progSize := rfl
@[simp] theorem State.emitCall_prints (i v : Word) : (s.emitCall i v).prints = s.prints := rfl
@[simp] theorem State.emitCall_calls (i v : Word) : (s.emitCall i v).calls = s.calls ++ [(i, v)] := rfl

@[simp] theorem State.enterFault_pc (k : FaultKind) (info : Word) : (s.enterFault k info).pc = s.pc := rfl
@[simp] theorem State.enterFault_reg (k : FaultKind) (info : Word) : (s.enterFault k info).reg = s.reg := rfl
@[simp] theorem State.enterFault_stk (k : FaultKind) (info : Word) : (s.enterFault k info).stk = s.stk := rfl
@[simp] theorem State.enterFault_mode (k : FaultKind) (info : Word) : (s.enterFault k info).mode = .halted := rfl
@[simp] theorem State.enterFault_fault (k : FaultKind) (info : Word) : (s.enterFault k info).fault = some
      { kind := k, code := k.code, pc := s.pc, reg := s.reg, progSize := s.progSize, info := info } := rfl
@[simp] theorem State.enterFault_prog (k : FaultKind) (info : Word) : (s.enterFault k info).prog = s.prog := rfl
@[simp] theorem State.enterFault_progSize (k : FaultKind) (info : Word) : (s.enterFault k info).progSize = s.progSize := rfl
@[simp] theorem State.enterFault_prints (k : FaultKind) (info : Word) : (s.enterFault k info).prints = s.prints := rfl
@[simp] theorem State.enterFault_calls (k : FaultKind) (info : Word) : (s.enterFault k info).calls = s.calls := rfl

end Sys2Proof.Machine
end

