-- ==== Sys2Proof/Laws/Exec.lean ====
section
/-! SUPPORT. What each shared operation can do, said once, and from it what any instruction can do. -/

namespace Sys2Proof.Machine

/-! ### The shared operations -/

theorem withTop_cons {s : State} {a : Word} {rest : List Word} (h : s.stk = a :: rest)
    (go : Word → List Word → Outcome) : withTop s go = go a rest := by
  simp [withTop, h]

theorem withTop_nil {s : State} (h : s.stk = []) (go : Word → List Word → Outcome) :
    withTop s go = .next (s.enterFault .stackUnderflow 0#16) := by
  simp [withTop, h, raise]

theorem withTopTwo_cons {s : State} {a b : Word} {rest : List Word} (h : s.stk = a :: b :: rest)
    (go : Word → Word → List Word → Outcome) : withTopTwo s go = go a b rest := by
  simp [withTopTwo, h]

theorem withTopTwo_short {s : State} (h : s.stk.length < 2) (go : Word → Word → List Word → Outcome) :
    withTopTwo s go = .next (s.enterFault .stackUnderflow 0#16) := by
  match hs : s.stk with
  | [] => simp [withTopTwo, hs, raise]
  | [_] => simp [withTopTwo, hs, raise]
  | _ :: _ :: _ => simp [hs] at h

/-- On this hardware a push never overflows (R25). -/
theorem pushWith_unbounded (o : Opcode) (v : Word) (s : State) :
    pushWith Config.stackDepth o v s = .next ((s.advance o).setStk (v :: s.stk)) := rfl

theorem pushWith_full {c : Nat} {s : State} (h : c ≤ s.stk.length) (o : Opcode) (v : Word) :
    pushWith (some c) o v s = .next (s.enterFault .stackOverflow 0#16) := by
  simp [pushWith, stackFull, h, raise]

theorem pushWith_room {c : Nat} {s : State} (h : s.stk.length < c) (o : Opcode) (v : Word) :
    pushWith (some c) o v s = .next ((s.advance o).setStk (v :: s.stk)) := by
  simp [pushWith, stackFull, Nat.not_le.mpr h]

theorem binaryOp_cons {s : State} {a b : Word} {rest : List Word} (h : s.stk = a :: b :: rest) (o : Opcode)
    (f : Word → Word → Word) : binaryOp o f s = .next ((s.advance o).setStk (f a b :: rest)) :=
  withTopTwo_cons h _

theorem binaryOp_short {s : State} (h : s.stk.length < 2) (o : Opcode) (f : Word → Word → Word) :
    binaryOp o f s = .next (s.enterFault .stackUnderflow 0#16) :=
  withTopTwo_short h _

theorem compareOp_cons {s : State} {a b : Word} {rest : List Word} (h : s.stk = a :: b :: rest) (o : Opcode)
    (rel : Nat → Nat → Bool) :
    compareOp o rel s = .next ((s.advance o).setStk (boolWord (rel a.toNat b.toNat) :: rest)) :=
  binaryOp_cons h o _

theorem compareOp_short {s : State} (h : s.stk.length < 2) (o : Opcode) (rel : Nat → Nat → Bool) :
    compareOp o rel s = .next (s.enterFault .stackUnderflow 0#16) :=
  binaryOp_short h o _

theorem divisionOp_cons {s : State} {a b : Word} {rest : List Word} (h : s.stk = a :: b :: rest) (o : Opcode)
    (divisor f : Word → Word → Word) :
    divisionOp o divisor f s =
      if divisor a b = 0#16 then .next (s.enterFault .divideByZero 0#16)
      else .next ((s.advance o).setStk (f a b :: rest)) :=
  withTopTwo_cons h _

theorem divisionOp_short {s : State} (h : s.stk.length < 2) (o : Opcode) (divisor f : Word → Word → Word) :
    divisionOp o divisor f s = .next (s.enterFault .stackUnderflow 0#16) :=
  withTopTwo_short h _

theorem branchOn_cons {s : State} {c : Word} {rest : List Word} (h : s.stk = c :: rest) (o : Opcode)
    (taken : Word → Bool) (target : Word) :
    branchOn o taken target s =
      .next (if taken c then ((s.advance o).setStk rest).jump target else (s.advance o).setStk rest) :=
  withTop_cons h _

theorem branchOn_nil {s : State} (h : s.stk = []) (o : Opcode) (taken : Word → Bool) (target : Word) :
    branchOn o taken target s = .next (s.enterFault .stackUnderflow 0#16) :=
  withTop_nil h _

theorem callWith_cons {s : State} {v : Word} {rest : List Word} (h : s.stk = v :: rest) (n : Nat) (imm : Word) :
    callWith n imm s =
      if n ≤ imm.toNat then .next (s.enterFault .invalidNativeIndex imm)
      else .next (((s.advance .call).setStk rest).emitCall imm v) :=
  withTop_cons h _

theorem callWith_nil {s : State} (h : s.stk = []) (n : Nat) (imm : Word) :
    callWith n imm s = .next (s.enterFault .stackUnderflow 0#16) :=
  withTop_nil h _

/-! ### What an instruction can do -/

/-- The instruction `i` completed, from `s` to `t`: everything it may change outside the stack and `pc`. -/
structure Completed (i : Instr) (s t : State) : Prop where
  prog : t.prog = s.prog
  progSize : t.progSize = s.progSize
  fault : t.fault = s.fault
  mode : t.mode = if i = .halt then .halted else s.mode
  reg : i ≠ .pop → t.reg = s.reg
  prints : t.prints = s.prints ∨ (i = .print ∧ ∃ v, s.stk.head? = some v ∧ t.prints = s.prints ++ [v])
  calls : t.calls = s.calls ∨
    ∃ imm v, i = .call imm ∧ imm.toNat < Config.ncall ∧ s.stk.head? = some v ∧ t.calls = s.calls ++ [(imm, v)]

/-- A completion that sends nothing out. -/
theorem Completed.quiet {i : Instr} {s t : State} (prog : t.prog = s.prog) (progSize : t.progSize = s.progSize)
    (fault : t.fault = s.fault) (prints : t.prints = s.prints) (calls : t.calls = s.calls)
    (mode : t.mode = if i = .halt then .halted else s.mode) (reg : i ≠ .pop → t.reg = s.reg) : Completed i s t :=
  ⟨prog, progSize, fault, mode, reg, .inl prints, .inl calls⟩

/-- An instruction raised a fault, with the condition under which it raises that kind. -/
inductive Raises (i : Instr) (s : State) : FaultKind → Word → Prop
  | underflow (h : s.stk.length < wordsNeeded i) : Raises i s .stackUnderflow 0#16
  | divByZero (h : i = .div) {b : Word} {rest : List Word} (hs : s.stk = 0#16 :: b :: rest) :
      Raises i s .divideByZero 0#16
  | modByZero (h : i = .mod) {a : Word} {rest : List Word} (hs : s.stk = a :: 0#16 :: rest) :
      Raises i s .divideByZero 0#16
  | nativeIndex {imm : Word} (h : i = .call imm) (hs : s.stk ≠ []) (hn : Config.ncall ≤ imm.toNat) :
      Raises i s .invalidNativeIndex imm

/-- What `exec` answers: it always answers a next state, which is a completion or a fault's entry. -/
inductive ExecResult (i : Instr) (s : State) : Outcome → Prop
  | completed {t : State} (enough : wordsNeeded i ≤ s.stk.length) (h : Completed i s t) : ExecResult i s (.next t)
  | faulted {k : FaultKind} {info : Word} (h : Raises i s k info) : ExecResult i s (.next (s.enterFault k info))

theorem ExecResult.ofBinary {i : Instr} {s : State} (o : Opcode) (f : Word → Word → Word) (hn : wordsNeeded i = 2)
    (hh : i ≠ .halt) : ExecResult i s (binaryOp o f s) := by
  match hs : s.stk with
  | a :: b :: rest =>
    rw [binaryOp_cons hs]
    exact .completed (by simp [hn, hs]) (.quiet rfl rfl rfl rfl rfl (by simp [hh]) fun _ => rfl)
  | [_] => rw [binaryOp_short (by simp [hs])]; exact .faulted (.underflow (by simp [hn, hs]))
  | [] => rw [binaryOp_short (by simp [hs])]; exact .faulted (.underflow (by simp [hn, hs]))

theorem ExecResult.ofBranch {i : Instr} {s : State} (o : Opcode) (taken : Word → Bool) (target : Word)
    (hn : wordsNeeded i = 1) (hh : i ≠ .halt) : ExecResult i s (branchOn o taken target s) := by
  match hs : s.stk with
  | c :: rest =>
    rw [branchOn_cons hs]
    refine .completed (by simp [hn, hs]) ?_
    cases taken c <;> exact .quiet rfl rfl rfl rfl rfl (by simp [hh]) fun _ => rfl
  | [] => rw [branchOn_nil hs]; exact .faulted (.underflow (by simp [hn, hs]))

/-- The one inversion lemma of `exec`: every claim about what instructions can do follows from it. -/
theorem exec_result (i : Instr) (s : State) : ExecResult i s (exec i s) := by
  cases i with
  | nop => exact .completed (Nat.zero_le _) (.quiet rfl rfl rfl rfl rfl rfl fun _ => rfl)
  | push imm => exact .completed (Nat.zero_le _) (.quiet rfl rfl rfl rfl rfl rfl fun _ => rfl)
  | load => exact .completed (Nat.zero_le _) (.quiet rfl rfl rfl rfl rfl rfl fun _ => rfl)
  | jmp imm => exact .completed (Nat.zero_le _) (.quiet rfl rfl rfl rfl rfl rfl fun _ => rfl)
  | halt => exact .completed (Nat.zero_le _) (.quiet rfl rfl rfl rfl rfl rfl fun _ => rfl)
  | pop =>
    match hs : s.stk with
    | a :: rest =>
      rw [exec, execPop, withTop_cons hs]
      exact .completed (by simp [wordsNeeded, hs]) (.quiet rfl rfl rfl rfl rfl rfl fun h => absurd rfl h)
    | [] => rw [exec, execPop, withTop_nil hs]; exact .faulted (.underflow (by simp [wordsNeeded, hs]))
  | neg =>
    match hs : s.stk with
    | a :: rest =>
      rw [exec, execNeg, withTop_cons hs]
      exact .completed (by simp [wordsNeeded, hs]) (.quiet rfl rfl rfl rfl rfl rfl fun _ => rfl)
    | [] => rw [exec, execNeg, withTop_nil hs]; exact .faulted (.underflow (by simp [wordsNeeded, hs]))
  | print =>
    match hs : s.stk with
    | a :: rest =>
      rw [exec, execPrint, withTop_cons hs]
      exact .completed (by simp [wordsNeeded, hs])
        ⟨rfl, rfl, rfl, rfl, fun _ => rfl, .inr ⟨rfl, a, by simp [hs], rfl⟩, .inl rfl⟩
    | [] => rw [exec, execPrint, withTop_nil hs]; exact .faulted (.underflow (by simp [wordsNeeded, hs]))
  | call imm =>
    match hs : s.stk with
    | v :: rest =>
      rw [exec, execCall, callWith_cons hs]
      split
      · next hn => exact .faulted (.nativeIndex rfl (by simp [hs]) hn)
      · next hn =>
        exact .completed (by simp [wordsNeeded, hs])
          ⟨rfl, rfl, rfl, rfl, fun _ => rfl, .inl rfl, .inr ⟨imm, v, rfl, Nat.not_le.mp hn, by simp [hs], rfl⟩⟩
    | [] => rw [exec, execCall, callWith_nil hs]; exact .faulted (.underflow (by simp [wordsNeeded, hs]))
  | div =>
    match hs : s.stk with
    | a :: b :: rest =>
      rw [exec, execDiv, divisionOp_cons hs]
      split
      · next hz => exact .faulted (.divByZero rfl (b := b) (rest := rest) (by rw [hs, hz]))
      · exact .completed (by simp [wordsNeeded, hs]) (.quiet rfl rfl rfl rfl rfl rfl fun _ => rfl)
    | [_] =>
      rw [exec, execDiv, divisionOp_short (by simp [hs])]
      exact .faulted (.underflow (by simp [wordsNeeded, hs]))
    | [] =>
      rw [exec, execDiv, divisionOp_short (by simp [hs])]
      exact .faulted (.underflow (by simp [wordsNeeded, hs]))
  | mod =>
    match hs : s.stk with
    | a :: b :: rest =>
      rw [exec, execMod, divisionOp_cons hs]
      split
      · next hz => exact .faulted (.modByZero rfl (a := a) (rest := rest) (by rw [hs, hz]))
      · exact .completed (by simp [wordsNeeded, hs]) (.quiet rfl rfl rfl rfl rfl rfl fun _ => rfl)
    | [_] =>
      rw [exec, execMod, divisionOp_short (by simp [hs])]
      exact .faulted (.underflow (by simp [wordsNeeded, hs]))
    | [] =>
      rw [exec, execMod, divisionOp_short (by simp [hs])]
      exact .faulted (.underflow (by simp [wordsNeeded, hs]))
  | jmpz imm => exact .ofBranch _ _ _ rfl nofun
  | jmpnz imm => exact .ofBranch _ _ _ rfl nofun
  | equ => exact .ofBinary _ _ rfl nofun
  | nequ => exact .ofBinary _ _ rfl nofun
  | gt => exact .ofBinary _ _ rfl nofun
  | gteq => exact .ofBinary _ _ rfl nofun
  | lt => exact .ofBinary _ _ rfl nofun
  | lteq => exact .ofBinary _ _ rfl nofun
  | add => exact .ofBinary _ _ rfl nofun
  | sub => exact .ofBinary _ _ rfl nofun
  | mul => exact .ofBinary _ _ rfl nofun
  | xor => exact .ofBinary _ _ rfl nofun
  | or => exact .ofBinary _ _ rfl nofun
  | and => exact .ofBinary _ _ rfl nofun

end Sys2Proof.Machine
end

