-- ==== Sys2Proof/Laws/Memory.lean ====
section
/-! SUPPORT. The laws of the program memory: read after write, and that every operation keeps the canonical form. -/

namespace Sys2Proof.Machine

theorem Memory.wfFrom_mono {lo lo' : Nat} (h : lo' ≤ lo) {m : Memory} (hm : Memory.wfFrom lo m = true) :
    Memory.wfFrom lo' m = true := by
  cases m with
  | nil => rfl
  | cons c rest =>
    simp only [Memory.wfFrom, Bool.and_eq_true, decide_eq_true_eq] at hm ⊢
    exact ⟨⟨Nat.le_trans h hm.1.1, hm.1.2⟩, hm.2⟩

/-- In a canonical memory that starts at `lo`, an address below `lo` is unlisted. -/
theorem Memory.read_below {lo : Nat} {m : Memory} (hm : Memory.wfFrom lo m = true) {a : Nat} (h : a < lo) :
    Memory.read m a = Memory.unlisted := by
  induction m generalizing lo with
  | nil => rfl
  | cons c rest ih =>
    simp only [Memory.wfFrom, Bool.and_eq_true, decide_eq_true_eq] at hm
    have hne : c.1 ≠ a := by omega
    simpa [Memory.read, hne] using ih hm.2 (by omega)

theorem Memory.read_write {lo : Nat} {m : Memory} (hm : Memory.wfFrom lo m = true) (a : Nat) (b : Byte) (x : Nat) :
    Memory.read (Memory.write m a b) x = if x = a then b else Memory.read m x := by
  induction m generalizing lo with
  | nil =>
    by_cases hb : b = Memory.unlisted <;> by_cases hx : x = a <;>
      simp [Memory.write, Memory.read, hb, hx, Ne.symm]
  | cons c rest ih =>
    obtain ⟨k, v⟩ := c
    simp only [Memory.wfFrom, Bool.and_eq_true, decide_eq_true_eq] at hm
    have below : ∀ y, y ≤ k → Memory.read rest y = Memory.unlisted := fun y hy =>
      Memory.read_below hm.2 (by omega)
    rcases Nat.lt_trichotomy a k with h | h | h
    · by_cases hb : b = Memory.unlisted
      · by_cases hx : x = a
        · have hk : k ≠ x := by omega
          simp [Memory.write, h, hb, hx, Memory.read, show k ≠ a by omega, below a (by omega)]
        · simp [Memory.write, h, hb, hx]
      · by_cases hx : x = a
        · simp [Memory.write, h, hb, hx, Memory.read]
        · simp [Memory.write, h, hb, hx, Memory.read, Ne.symm hx]
    · subst h
      by_cases hb : b = Memory.unlisted
      · by_cases hx : x = a
        · simp [Memory.write, hb, hx, below a (by omega)]
        · simp [Memory.write, hb, hx, Memory.read, Ne.symm hx]
      · by_cases hx : x = a
        · simp [Memory.write, hb, hx, Memory.read]
        · simp [Memory.write, hb, hx, Memory.read, Ne.symm hx]
    · have hn : ¬ a < k := by omega
      have hne : a ≠ k := by omega
      by_cases hx : k = x
      · subst hx
        simp [Memory.write, hn, hne, Memory.read, hne.symm]
      · simp [Memory.write, hn, hne, Memory.read, hx, ih hm.2]

theorem Memory.wfFrom_write {lo : Nat} {m : Memory} (hm : Memory.wfFrom lo m = true) {a : Nat} (h : lo ≤ a) (b : Byte) :
    Memory.wfFrom lo (Memory.write m a b) = true := by
  induction m generalizing lo with
  | nil => by_cases hb : b = Memory.unlisted <;> simp [Memory.write, hb, Memory.wfFrom, h]
  | cons c rest ih =>
    obtain ⟨k, v⟩ := c
    simp only [Memory.wfFrom, Bool.and_eq_true, decide_eq_true_eq] at hm
    obtain ⟨⟨h1, h2⟩, h3⟩ := hm
    rcases Nat.lt_trichotomy a k with hk | hk | hk
    · by_cases hb : b = Memory.unlisted
      · simp [Memory.write, hk, hb, Memory.wfFrom, h1, h2, h3]
      · simp [Memory.write, hk, hb, Memory.wfFrom, h, h2, h3]
    · subst hk
      by_cases hb : b = Memory.unlisted
      · simpa [Memory.write, hb] using Memory.wfFrom_mono (show lo ≤ a + 1 by omega) h3
      · simp [Memory.write, hb, Memory.wfFrom, h, h3]
    · have hn : ¬ a < k := by omega
      have hne : a ≠ k := by omega
      simp [Memory.write, hn, hne, Memory.wfFrom, h1, h2, ih h3 (show k + 1 ≤ a by omega)]

theorem Memory.wf_write {m : Memory} (hm : Memory.wf m = true) (a : Nat) (b : Byte) :
    Memory.wf (Memory.write m a b) = true :=
  Memory.wfFrom_write hm (Nat.zero_le a) b

theorem Memory.wf_writeAll {m : Memory} (hm : Memory.wf m = true) (a : Nat) (bytes : List Byte) :
    Memory.wf (Memory.writeAll m a bytes) = true := by
  induction bytes generalizing m a with
  | nil => exact hm
  | cons b bytes ih => exact ih (Memory.wf_write hm a b) (a + 1)

/-- After a byte string is written at `a`, the addresses it covers read as its bytes and the others as before. -/
theorem Memory.read_writeAll {m : Memory} (hm : Memory.wf m = true) (a : Nat) (bytes : List Byte) (x : Nat) :
    Memory.read (Memory.writeAll m a bytes) x =
      if a ≤ x then (bytes[x - a]?).getD (Memory.read m x) else Memory.read m x := by
  induction bytes generalizing m a with
  | nil => simp [Memory.writeAll]
  | cons b bytes ih =>
    rw [Memory.writeAll, ih (Memory.wf_write hm a b), Memory.read_write hm]
    rcases Nat.lt_trichotomy x a with h | h | h
    · simp [show ¬ a + 1 ≤ x by omega, show ¬ a ≤ x by omega, show x ≠ a by omega]
    · subst h; simp
    · obtain ⟨d, hd⟩ : ∃ d, x - a = d + 1 := ⟨x - a - 1, by omega⟩
      simp [show a + 1 ≤ x by omega, show a ≤ x by omega, show x ≠ a by omega, hd, show x - (a + 1) = d by omega]

theorem Memory.wfFrom_ofBytesAt (a : Nat) (bytes : List Byte) : Memory.wfFrom a (Memory.ofBytesAt a bytes) = true := by
  induction bytes generalizing a with
  | nil => rfl
  | cons b bytes ih =>
    by_cases hb : b = Memory.unlisted
    · simpa [Memory.ofBytesAt, hb] using Memory.wfFrom_mono (Nat.le_succ a) (ih (a + 1))
    · simp [Memory.ofBytesAt, hb, Memory.wfFrom, ih (a + 1)]

theorem Memory.wf_ofBytes (bytes : List Byte) : Memory.wf (Memory.ofBytes bytes) = true :=
  Memory.wfFrom_ofBytesAt 0 bytes

theorem Memory.wf_nil : Memory.wf [] = true := rfl

theorem Memory.read_ofBytesAt (a : Nat) (bytes : List Byte) (k : Nat) :
    Memory.read (Memory.ofBytesAt a bytes) (a + k) = (bytes[k]?).getD Memory.unlisted := by
  induction bytes generalizing a k with
  | nil => rfl
  | cons b bytes ih =>
    cases k with
    | zero =>
      by_cases hb : b = Memory.unlisted
      · simpa [Memory.ofBytesAt, hb] using Memory.read_below (Memory.wfFrom_ofBytesAt (a + 1) bytes) (Nat.lt_succ_self a)
      · simp [Memory.ofBytesAt, hb, Memory.read]
    | succ k =>
      have step : Memory.read (Memory.ofBytesAt (a + 1) bytes) (a + (k + 1)) = (bytes[k]?).getD Memory.unlisted := by
        rw [show a + (k + 1) = (a + 1) + k by omega]; exact ih (a + 1) k
      by_cases hb : b = Memory.unlisted
      · simpa [Memory.ofBytesAt, hb] using step
      · simpa [Memory.ofBytesAt, hb, Memory.read] using step

/-- A loaded program reads as its bytes (R46). -/
theorem Memory.read_ofBytes (bytes : List Byte) (k : Nat) :
    Memory.read (Memory.ofBytes bytes) k = (bytes[k]?).getD Memory.unlisted := by
  simpa [Memory.ofBytes] using Memory.read_ofBytesAt 0 bytes k

/-- A loaded program lists no address at or above its length. -/
theorem Memory.ofBytesAt_bounds (a : Nat) (bytes : List Byte) :
    ∀ c ∈ Memory.ofBytesAt a bytes, c.1 < a + bytes.length := by
  induction bytes generalizing a with
  | nil => simp [Memory.ofBytesAt]
  | cons b bytes ih =>
    intro c hc
    have later : c ∈ Memory.ofBytesAt (a + 1) bytes → c.1 < a + (bytes.length + 1) := fun h => by
      have := ih (a + 1) c h; omega
    by_cases hb : b = Memory.unlisted
    · exact later (by simpa [Memory.ofBytesAt, hb] using hc)
    · rcases List.mem_cons.mp (by simpa [Memory.ofBytesAt, hb] using hc) with h | h
      · subst h; simp
      · exact later h

/-- A state's program bytes exist exactly below `PROG_SIZE` (R40, R47). -/
theorem State.readByte_eq_none_iff (s : State) (a : Nat) : s.readByte a = none ↔ s.progSize.toNat ≤ a := by
  by_cases h : a < s.progSize.toNat <;> simp [State.readByte, h]
  omega

end Sys2Proof.Machine
end

