-- ==== Sys2Proof/Laws/PerInstr.lean ====
section
/-! SUPPORT. What holds of every instruction as syntax, one lemma per constructor. -/

namespace Sys2Proof.Laws

/-- The layout of an instruction's encoding (R60, R61, R62): its first byte is its opcode's byte, which decodes back to that
opcode; its length is `1 + 2` times the number of its operands; and it is well-formed as written. -/
def Layout.Statement (i : Instr) : Prop :=
  (encode i).head? = some i.opcode.byte ∧ decodeByte i.opcode.byte = some i.opcode ∧
    (encode i).length = i.size ∧ i.size = 1 + 2 * i.operand.toList.length ∧ i.WellFormed

theorem Layout.nop : Layout.Statement .nop :=
  ⟨rfl, by decide, rfl, rfl, Instr.wellFormed_all _⟩

theorem Layout.push (imm : Word) : Layout.Statement (.push imm) :=
  ⟨rfl, by simp, by simp [encode, Instr.operand, operandBytes_eq]; rfl, rfl, Instr.wellFormed_all _⟩

theorem Layout.pop : Layout.Statement .pop :=
  ⟨rfl, by decide, rfl, rfl, Instr.wellFormed_all _⟩

theorem Layout.load : Layout.Statement .load :=
  ⟨rfl, by decide, rfl, rfl, Instr.wellFormed_all _⟩

theorem Layout.call (imm : Word) : Layout.Statement (.call imm) :=
  ⟨rfl, by simp, by simp [encode, Instr.operand, operandBytes_eq]; rfl, rfl, Instr.wellFormed_all _⟩

theorem Layout.equ : Layout.Statement .equ :=
  ⟨rfl, by decide, rfl, rfl, Instr.wellFormed_all _⟩

theorem Layout.nequ : Layout.Statement .nequ :=
  ⟨rfl, by decide, rfl, rfl, Instr.wellFormed_all _⟩

theorem Layout.gt : Layout.Statement .gt :=
  ⟨rfl, by decide, rfl, rfl, Instr.wellFormed_all _⟩

theorem Layout.gteq : Layout.Statement .gteq :=
  ⟨rfl, by decide, rfl, rfl, Instr.wellFormed_all _⟩

theorem Layout.lt : Layout.Statement .lt :=
  ⟨rfl, by decide, rfl, rfl, Instr.wellFormed_all _⟩

theorem Layout.lteq : Layout.Statement .lteq :=
  ⟨rfl, by decide, rfl, rfl, Instr.wellFormed_all _⟩

theorem Layout.add : Layout.Statement .add :=
  ⟨rfl, by decide, rfl, rfl, Instr.wellFormed_all _⟩

theorem Layout.sub : Layout.Statement .sub :=
  ⟨rfl, by decide, rfl, rfl, Instr.wellFormed_all _⟩

theorem Layout.mul : Layout.Statement .mul :=
  ⟨rfl, by decide, rfl, rfl, Instr.wellFormed_all _⟩

theorem Layout.div : Layout.Statement .div :=
  ⟨rfl, by decide, rfl, rfl, Instr.wellFormed_all _⟩

theorem Layout.xor : Layout.Statement .xor :=
  ⟨rfl, by decide, rfl, rfl, Instr.wellFormed_all _⟩

theorem Layout.or : Layout.Statement .or :=
  ⟨rfl, by decide, rfl, rfl, Instr.wellFormed_all _⟩

theorem Layout.mod : Layout.Statement .mod :=
  ⟨rfl, by decide, rfl, rfl, Instr.wellFormed_all _⟩

theorem Layout.neg : Layout.Statement .neg :=
  ⟨rfl, by decide, rfl, rfl, Instr.wellFormed_all _⟩

theorem Layout.and : Layout.Statement .and :=
  ⟨rfl, by decide, rfl, rfl, Instr.wellFormed_all _⟩

theorem Layout.jmp (imm : Word) : Layout.Statement (.jmp imm) :=
  ⟨rfl, by simp, by simp [encode, Instr.operand, operandBytes_eq]; rfl, rfl, Instr.wellFormed_all _⟩

theorem Layout.jmpz (imm : Word) : Layout.Statement (.jmpz imm) :=
  ⟨rfl, by simp, by simp [encode, Instr.operand, operandBytes_eq]; rfl, rfl, Instr.wellFormed_all _⟩

theorem Layout.jmpnz (imm : Word) : Layout.Statement (.jmpnz imm) :=
  ⟨rfl, by simp, by simp [encode, Instr.operand, operandBytes_eq]; rfl, rfl, Instr.wellFormed_all _⟩

theorem Layout.print : Layout.Statement .print :=
  ⟨rfl, by decide, rfl, rfl, Instr.wellFormed_all _⟩

theorem Layout.halt : Layout.Statement .halt :=
  ⟨rfl, by decide, rfl, rfl, Instr.wellFormed_all _⟩

end Sys2Proof.Laws
end

