-- ==== Sys2Proof/Laws/Step.lean ====
section
/-! SUPPORT. What a step can do, and what the fetch finds. -/

namespace Sys2Proof.Machine

theorem step_running {s : State} (h : s.mode = .running) : step s = stepRunning s := by
  simp [step, h]

theorem step_not_running {s : State} (h : s.mode ≠ .running) : step s = .next s := by
  cases hm : s.mode <;> simp_all [step]

theorem stepRunning_instr {s : State} {i : Instr} (h : fetch s = .instr i) : stepRunning s = exec i s := by
  simp [stepRunning, h]

theorem stepRunning_invalid {s : State} {b : Byte} (h : fetch s = .invalidOpcode b) :
    stepRunning s = .next (s.enterFault .invalidOpcode (b.setWidth 16)) := by
  simp [stepRunning, h, raise]

theorem stepRunning_outOfBounds {s : State} (h : fetch s = .outOfBounds) :
    stepRunning s = .next (s.enterFault .fetchOutOfBounds 0#16) := by
  simp [stepRunning, h, raise]

/-- The opcode byte exists whenever anything but `outOfBounds` is found. -/
theorem fetch_invalid {s : State} {b : Byte} (h : fetch s = .invalidOpcode b) : decodeByte b = none := by
  unfold fetch decodeAt at h
  split at h
  · cases h
  · split at h
    · next hd => cases h; exact hd
    · split at h
      · cases h
      · split at h <;> cases h

/-- A placed byte string is what stands at `pc` (log 11). -/
theorem readByte_withBytesAtPc {s : State} (hm : Memory.wf s.prog = true) {bytes : List Byte}
    (hl : bytes.length ≤ Config.progSizeMax) {k : Nat} (hk : k < bytes.length) :
    (s.withBytesAtPc bytes).readByte ((s.withBytesAtPc bytes).pc.toNat + k) = bytes[k]? := by
  obtain ⟨base, hb, fits⟩ : ∃ base : Word,
      (if s.pc.toNat + bytes.length ≤ Config.progSizeMax then s.pc else 0#16) = base ∧
        base.toNat + bytes.length ≤ 65535 := by
    by_cases h : s.pc.toNat + bytes.length ≤ Config.progSizeMax
    · exact ⟨s.pc, if_pos h, h⟩
    · refine ⟨0#16, if_neg h, ?_⟩
      simpa [Config.progSizeMax, Config.wordBits, Config.wordBytes] using hl
  have below : base.toNat + k < max s.progSize.toNat (base.toNat + bytes.length) % 65536 := by
    have := s.progSize.isLt
    omega
  simp [State.withBytesAtPc, hb, State.readByte, Memory.read_writeAll hm, below, List.getElem?_eq_getElem hk]

end Sys2Proof.Machine
end

