-- ==== Sys2Proof/Tests/Slice0.lean ====
section
/-! SUPPORT. Small tests, their expected results taken from the spec's own vectors (`95_test_vectors.md`, section named in each
docstring), and for each obligation with hypotheses a named witness that meets them. The word-size, opcode numbering and byte
order they use are the spec's (D1, D2, D3). -/

namespace Sys2Proof.Tests

open Sys2Proof.Machine

/-! ### Helpers -/

/-- A running engine at `pc = 0` with a program, a stack (top first) and a scratch register. -/
def running (bytes : List Byte) (stk : List Word) (reg : Word := 0#16) : State :=
  { State.reset with
    mode := .running, prog := Memory.ofBytes bytes, progSize := BitVec.ofNat 16 bytes.length, stk := stk, reg := reg }

/-- The state an outcome answers. -/
def after : Outcome → Option State
  | .next t => some t
  | .fault _ => none
  | .refused _ => none

/-- The stack and `pc` after one step. -/
def stkPc (s : State) : Option (List Word × Word) :=
  (after (step s)).map fun t => (t.stk, t.pc)

/-- What a test looks at after a fault. -/
structure Seen where
  kind : FaultKind
  code : Nat
  info : Word
  pc : Word
  stk : List Word
  deriving DecidableEq, Repr

/-- The fault after one step: its kind, code and `info`, with `pc` and the stack it leaves. -/
def faultOf (s : State) : Option Seen :=
  (after (step s)).bind fun t => t.fault.map fun r => Seen.mk r.kind r.code r.info t.pc t.stk

/-- A binary instruction's stack after one step of its byte, on `[b, a]` written as the spec writes it, bottom first. -/
def binary (opcode : Byte) (b a : Word) : Option (List Word) :=
  (after (step (running [opcode, 0x18#8] [a, b]))).map State.stk

/-! ### Well-formedness: each check refuses an ill-formed term -/

theorem test_wellFormed_refuses_missing_operand :
    (RawInstr.mk .push none).operandMatchesArity = false ∧ (RawInstr.mk .push none).wellFormed = false := by decide

theorem test_wellFormed_refuses_superfluous_operand :
    (RawInstr.mk .add (some 5)).operandMatchesArity = false ∧ (RawInstr.mk .add (some 5)).wellFormed = false := by decide

theorem test_wellFormed_refuses_operand_above_65535 :
    (RawInstr.mk .jmp (some 65536)).operandFits = false ∧ (RawInstr.mk .jmp (some 65536)).wellFormed = false ∧
      (RawInstr.mk .jmp (some 65535)).toInstr = some (.jmp 0xFFFF#16) := by decide

theorem test_wholeInstructions_refuses_illegal_opcode :
    wholeInstructions [0x00#8, 0x19#8] = false := by decide

theorem test_wholeInstructions_refuses_truncated_instruction :
    wholeInstructions [0x0B#8, 0x01#8, 0x05#8] = false := by decide

/-- P1's nine bytes. -/
theorem test_wholeInstructions_accepts_P1 :
    wholeInstructions [0x01#8, 0x05#8, 0x00#8, 0x01#8, 0x03#8, 0x00#8, 0x0B#8, 0x17#8, 0x18#8] = true := by decide

/-! ### Decoding: words written out from R61 and R66 -/

theorem test_decode_stack :
    decode [0b00000001#8, 0b00110100#8, 0b00010010#8] = .instr (.push 0x1234#16) ∧
    decode [0b00000010#8] = .instr .pop ∧ decode [0b00000011#8] = .instr .load := by decide

theorem test_decode_compare :
    decode [0b00000101#8] = .instr .equ ∧ decode [0b00000110#8] = .instr .nequ ∧
    decode [0b00000111#8] = .instr .gt ∧ decode [0b00001000#8] = .instr .gteq ∧
    decode [0b00001001#8] = .instr .lt ∧ decode [0b00001010#8] = .instr .lteq := by decide

theorem test_decode_arith_logic :
    decode [0b00001011#8] = .instr .add ∧ decode [0b00001100#8] = .instr .sub ∧
    decode [0b00001101#8] = .instr .mul ∧ decode [0b00001110#8] = .instr .div ∧
    decode [0b00001111#8] = .instr .xor ∧ decode [0b00010000#8] = .instr .or ∧
    decode [0b00010001#8] = .instr .mod ∧ decode [0b00010010#8] = .instr .neg ∧
    decode [0b00010011#8] = .instr .and := by decide

theorem test_decode_control_flow :
    decode [0b00010100#8, 0b00000110#8, 0b00000000#8] = .instr (.jmp 6#16) ∧
    decode [0b00010101#8, 0b00000010#8, 0b00000001#8] = .instr (.jmpz 258#16) ∧
    decode [0b00010110#8, 0b11111111#8, 0b11111111#8] = .instr (.jmpnz 65535#16) := by decide

theorem test_decode_system :
    decode [0b00000100#8, 0b00000001#8, 0b00000000#8] = .instr (.call 1#16) ∧
    decode [0b00010111#8] = .instr .print ∧ decode [0b00011000#8] = .instr .halt ∧
    decode [0b00000000#8] = .instr .nop := by decide

theorem test_decode_rejects :
    decode [] = .outOfBounds ∧ decode [0x19#8] = .invalidOpcode 0x19#8 ∧ decode [0xFF#8] = .invalidOpcode 0xFF#8 ∧
    decode [0x15#8] = .outOfBounds ∧ decode [0x15#8, 0x00#8] = .outOfBounds := by decide

theorem test_decodeTableWord :
    decodeTableWord 24 0x123401 = some (.push 0x1234#16) ∧ decodeTableWord 8 0x01 = some (.push 0#16) ∧
    decodeTableWord 8 0x0B = some .add ∧ decodeTableWord 8 0x19 = none := by decide

theorem test_withFetchWord_runs_it_first :
    stkPc (State.reset.withFetchWord 24 0x123401) = some ([0x1234#16], 3#16) ∧
    stkPc (State.reset.withFetchWord 8 0x00) = some ([], 1#16) := by decide

/-- At the top of the address space the bytes go to offset 0 (log 11). -/
theorem test_withFetchWord_at_the_top :
    stkPc (State.withFetchWord { State.reset with pc := 0xFFFF#16 } 24 0x000914) = some ([], 9#16) := by decide

/-! ### Fetch and decode (2.1) -/

theorem test_step_invalid_opcode :
    faultOf (running [0x19#8] []) = some ⟨.invalidOpcode, 1, 0x19#16, 0#16, []⟩ ∧
    faultOf (running [0xFF#8] []) = some ⟨.invalidOpcode, 1, 0xFF#16, 0#16, []⟩ := by decide

theorem test_step_truncated_before_underflow :
    faultOf (running [0x01#8, 0x05#8] []) = some ⟨.fetchOutOfBounds, 4, 0#16, 0#16, []⟩ ∧
    faultOf (running [0x15#8, 0x00#8] []) = some ⟨.fetchOutOfBounds, 4, 0#16, 0#16, []⟩ := by decide

theorem test_step_past_the_end :
    faultOf { running [0x18#8] [] with pc := 1#16 } = some ⟨.fetchOutOfBounds, 4, 0#16, 1#16, []⟩ := by decide

/-! ### Stack instructions (2.2) -/

theorem test_push :
    stkPc (running [0x01#8, 0x34#8, 0x12#8] []) = some ([4660#16], 3#16) ∧
    stkPc (running [0x01#8, 0x00#8, 0x01#8] [9#16]) = some ([256#16, 9#16], 3#16) := by decide

theorem test_pop :
    (after (step (running [0x02#8] [9#16, 7#16]))).map (fun t => (t.stk, t.reg, t.pc)) = some ([7#16], 9#16, 1#16) ∧
    (after (step (running [0x02#8] [] 5#16))).map (fun t => (t.stk, t.reg, t.pc)) = some ([], 5#16, 0#16) := by decide

theorem test_pop_underflow :
    faultOf (running [0x02#8] [] 5#16) = some ⟨.stackUnderflow, 2, 0#16, 0#16, []⟩ := by decide

theorem test_load :
    (after (step (running [0x03#8] [7#16] 9#16))).map (fun t => (t.stk, t.reg)) = some ([9#16, 7#16], 9#16) ∧
    stkPc (running [0x03#8] []) = some ([0#16], 1#16) := by decide

/-! ### Arithmetic and logic (2.3) -/

theorem test_add :
    binary 0x0B#8 5#16 3#16 = some [8#16] ∧ binary 0x0B#8 65535#16 1#16 = some [0#16] ∧
    binary 0x0B#8 40000#16 40000#16 = some [14464#16] := by decide

theorem test_add_leaves_the_deeper_stack :
    stkPc (running [0x0B#8] [3#16, 5#16, 100#16]) = some ([8#16, 100#16], 1#16) ∧
    faultOf (running [0x0B#8] [9#16]) = some ⟨.stackUnderflow, 2, 0#16, 0#16, [9#16]⟩ := by decide

theorem test_sub :
    binary 0x0C#8 5#16 3#16 = some [2#16] ∧ binary 0x0C#8 3#16 5#16 = some [65534#16] ∧
    binary 0x0C#8 0#16 65535#16 = some [1#16] := by decide

theorem test_mul :
    binary 0x0D#8 6#16 7#16 = some [42#16] ∧ binary 0x0D#8 300#16 300#16 = some [24464#16] ∧
    binary 0x0D#8 65535#16 65535#16 = some [1#16] := by decide

theorem test_div :
    binary 0x0E#8 10#16 3#16 = some [3#16] ∧ binary 0x0E#8 3#16 10#16 = some [0#16] ∧
    binary 0x0E#8 65535#16 2#16 = some [32767#16] := by decide

theorem test_div_by_zero :
    faultOf (running [0x0E#8] [0#16, 10#16]) = some ⟨.divideByZero, 3, 0#16, 0#16, [0#16, 10#16]⟩ := by decide

theorem test_mod :
    binary 0x11#8 5#16 17#16 = some [2#16] ∧ binary 0x11#8 17#16 5#16 = some [5#16] ∧
    binary 0x11#8 10#16 0#16 = some [0#16] := by decide

theorem test_mod_by_zero :
    faultOf (running [0x11#8] [10#16, 0#16]) = some ⟨.divideByZero, 3, 0#16, 0#16, [10#16, 0#16]⟩ := by decide

theorem test_xor :
    binary 0x0F#8 0x0F0F#16 0x00FF#16 = some [0x0FF0#16] ∧ binary 0x0F#8 0x1234#16 0xFFFF#16 = some [0xEDCB#16] := by
  decide

theorem test_or :
    binary 0x10#8 0x0F0F#16 0x00FF#16 = some [0x0FFF#16] ∧ binary 0x10#8 2#16 1#16 = some [3#16] := by decide

theorem test_and :
    binary 0x13#8 0x0F0F#16 0x00FF#16 = some [0x000F#16] ∧ binary 0x13#8 2#16 1#16 = some [0#16] := by decide

theorem test_neg :
    stkPc (running [0x12#8] [1#16]) = some ([65534#16], 1#16) ∧
    stkPc (running [0x12#8] [0x1234#16]) = some ([0xEDCB#16], 1#16) ∧
    faultOf (running [0x12#8] []) = some ⟨.stackUnderflow, 2, 0#16, 0#16, []⟩ := by decide

/-! ### Comparisons (2.4): rows `[5, 3]`, `[5, 5]`, `[1, 65535]` of the table -/

theorem test_equ :
    binary 0x05#8 5#16 3#16 = some [0#16] ∧ binary 0x05#8 5#16 5#16 = some [1#16] := by decide

theorem test_nequ :
    binary 0x06#8 5#16 3#16 = some [1#16] ∧ binary 0x06#8 5#16 5#16 = some [0#16] := by decide

theorem test_gt :
    binary 0x07#8 5#16 3#16 = some [0#16] ∧ binary 0x07#8 5#16 5#16 = some [0#16] ∧
    binary 0x07#8 1#16 65535#16 = some [1#16] := by decide

theorem test_gteq :
    binary 0x08#8 5#16 3#16 = some [0#16] ∧ binary 0x08#8 5#16 5#16 = some [1#16] ∧
    binary 0x08#8 1#16 65535#16 = some [1#16] := by decide

theorem test_lt :
    binary 0x09#8 5#16 3#16 = some [1#16] ∧ binary 0x09#8 5#16 5#16 = some [0#16] ∧
    binary 0x09#8 1#16 65535#16 = some [0#16] := by decide

theorem test_lteq :
    binary 0x0A#8 5#16 3#16 = some [1#16] ∧ binary 0x0A#8 5#16 5#16 = some [1#16] ∧
    binary 0x0A#8 1#16 65535#16 = some [0#16] := by decide

theorem test_compare_underflow :
    faultOf (running [0x07#8] [9#16]) = some ⟨.stackUnderflow, 2, 0#16, 0#16, [9#16]⟩ ∧
    faultOf (running [0x05#8] []) = some ⟨.stackUnderflow, 2, 0#16, 0#16, []⟩ := by decide

/-! ### Control transfer (2.5) -/

theorem test_jmp :
    stkPc (running [0x14#8, 0x06#8, 0x00#8] [4#16]) = some ([4#16], 6#16) ∧
    stkPc (running [0x14#8, 0x00#8, 0x00#8] []) = some ([], 0#16) := by decide

theorem test_jmpz :
    stkPc (running [0x15#8, 0x02#8, 0x01#8] [0#16]) = some ([], 258#16) ∧
    stkPc (running [0x15#8, 0x09#8, 0x00#8] [65535#16]) = some ([], 3#16) := by decide

theorem test_jmpz_underflow :
    faultOf (running [0x15#8, 0x09#8, 0x00#8] []) = some ⟨.stackUnderflow, 2, 0#16, 0#16, []⟩ := by decide

theorem test_jmpnz :
    stkPc (running [0x16#8, 0x09#8, 0x00#8] [65535#16, 5#16]) = some ([5#16], 9#16) ∧
    stkPc (running [0x16#8, 0x09#8, 0x00#8] [0#16]) = some ([], 3#16) := by decide

/-! ### System instructions (2.6) -/

theorem test_nop :
    after (step (running [0x00#8] [1#16] 2#16)) = some { running [0x00#8] [1#16] 2#16 with pc := 1#16 } := by decide

theorem test_print :
    (after (step (running [0x17#8] [65535#16, 3#16]))).map (fun t => (t.prints, t.stk, t.pc)) =
      some ([65535#16], [65535#16, 3#16], 1#16) ∧
    (after (step (running [0x17#8] []))).map (fun t => (t.prints, t.mode)) = some ([], .halted) := by decide

/-- `NCALL` is at least 1, so index 0 exists in every build. -/
theorem test_call :
    (after (step (running [0x04#8, 0x00#8, 0x00#8] [100#16]))).map (fun t => (t.calls, t.stk, t.pc)) =
      some ([(0#16, 100#16)], [], 3#16) := by decide

/-- The vectors with `NCALL = 1`: a bad index, and underflow before it. -/
theorem test_call_bad_index :
    (after (callWith 1 1#16 (running [0x04#8, 0x01#8, 0x00#8] [100#16]))).map
        (fun t => (t.fault.map FaultRecord.kind, t.fault.map FaultRecord.info, t.stk, t.calls)) =
      some (some .invalidNativeIndex, some 1#16, [100#16], []) ∧
    (after (callWith 1 1#16 (running [0x04#8, 0x01#8, 0x00#8] []))).map (fun t => t.fault.map FaultRecord.kind) =
      some (some .stackUnderflow) := by decide

theorem test_halt :
    (after (step (running [0x18#8] [8#16] 3#16))).map (fun t => (t.mode, t.fault, t.pc, t.stk, t.reg)) =
      some (.halted, none, 1#16, [8#16], 3#16) := by decide

/-! ### Host operations (2.7), status, sessions -/

theorem test_load_empty_or_missing :
    hostOp (.load (some [])) State.reset = (State.reset, .loadError) ∧
    hostOp (.load none) State.reset = (State.reset, .loadError) := by decide

theorem test_load_size_limit (bytes : List Byte) :
    (bytes.length = 65536 → (hostOp (.load (some bytes)) State.reset).2 = .loadError) ∧
    (bytes.length = 65535 → (hostOp (.load (some bytes)) State.reset).2 = .ok) := by
  have nonempty : ∀ n, bytes.length = n + 1 → bytes ≠ [] := fun n h => List.ne_nil_of_length_eq_add_one h
  constructor <;> intro h <;>
    simp [hostOp, HostOp.acceptedIn, acceptedEffect, loadIdle, State.reset, Config.progSizeMax, Config.wordBits,
      Config.wordBytes, h, nonempty _ h]

theorem test_load_then_start :
    (hostOp (.load (some [0x18#8, 0x00#8])) State.reset).1.progSize = 2#16 ∧
    (hostOp .start (hostOp (.load (some [0x18#8, 0x00#8])) State.reset).1).1 = running [0x18#8, 0x00#8] [] := by decide

theorem test_start_refused :
    hostOp .start State.reset = (State.reset, .refused) ∧
    (hostOp .start { running [0x18#8] [] with mode := .halted }).2 = .refused := by decide

theorem test_stop :
    hostOp .stop { running [0x18#8] [] with pc := 6#16 } =
      ({ running [0x18#8] [] with pc := 6#16, mode := .halted }, .ok) ∧
    (hostOp .stop State.reset).2 = .refused := by decide

theorem test_reset_after_a_fault :
    hostOp .reset ((running [0x0E#8] [0#16, 10#16]).enterFault .divideByZero 0#16) = (State.reset, .ok) := by decide

theorem test_status :
    (status (running [0x18#8] [3#16, 5#16])).detail = none ∧
    (status { running [0x18#8] [3#16, 5#16] with mode := .halted }).detail.map StatusDetail.stkBottomFirst =
      some [5#16, 3#16] := by decide

/-- `EXIT_STATUS_OF` is any mapping; here the outcome itself. -/
theorem test_run :
    runBinary id 2 (some [0x00#8, 0x18#8]) State.reset = .exited .halted ∧
    runBinary id 1 (some [0x02#8]) State.reset = .exited (.fault .stackUnderflow) ∧
    runBinary id 3 (some [0x14#8, 0x00#8, 0x00#8]) State.reset = .stillRunning := by decide

/-- A session waits at a `CALL` until the completion. -/
theorem test_session_waits_for_the_call :
    ((Session.mk (running [0x04#8, 0x00#8, 0x00#8] [100#16]) false).run [.engineStep]).map Session.awaiting = some true ∧
    (Session.mk (running [0x04#8, 0x00#8, 0x00#8] [100#16]) false).run [.engineStep, .engineStep] = none ∧
    ((Session.mk (running [0x04#8, 0x00#8, 0x00#8] [100#16]) false).run [.engineStep, .complete]).map Session.awaiting =
      some false := by decide

/-! ### The line syntax -/

/-- S1 / P1. -/
theorem test_assemble_P1 :
    Assembler.assemble ["PUSH 5".toList, "PUSH 3".toList, "ADD".toList, "PRINT".toList, "HALT".toList] =
      .ok [0x01#8, 0x05#8, 0x00#8, 0x01#8, 0x03#8, 0x00#8, 0x0B#8, 0x17#8, 0x18#8] := by decide

/-- S2 / P2, and a forward reference (P7). -/
theorem test_assemble_labels :
    Assembler.assemble ["loop:".toList, "PUSH 1".toList, "JMPZ loop".toList, "HALT".toList] =
      .ok [0x01#8, 0x01#8, 0x00#8, 0x15#8, 0x00#8, 0x00#8, 0x18#8] ∧
    Assembler.assemble ["JMP over".toList, "PUSH 6168".toList, "over:".toList, "PUSH 2".toList, "JMP 4".toList] =
      .ok [0x14#8, 0x06#8, 0x00#8, 0x01#8, 0x18#8, 0x18#8, 0x01#8, 0x02#8, 0x00#8, 0x14#8, 0x04#8, 0x00#8] := by decide

/-- R76, R77, R78 (a `-` makes a label of the operand), S4. -/
theorem test_assemble_comments_and_errors :
    Assembler.assemble ["PUSH 5 # five".toList, "".toList, "NOP".toList] = .ok [0x00#8] ∧
    Assembler.assemble ["push 5".toList] = .error (.invalidOpcode "push".toList) ∧
    Assembler.assemble ["PUSH -1".toList] = .error (.invalidLabel "-1".toList) ∧
    Assembler.assemble ["x:".toList, "NOP".toList, "x:".toList] = .error (.duplicateLabel "x".toList) := by decide

/-- The model's own answers where the spec is silent (N16, log 20): a label name with punctuation, and operands on `ADD`. -/
theorem test_assemble_choices :
    Assembler.assemble ["a:b!:".toList, "JMP a:b!".toList] = .ok [0x14#8, 0x00#8, 0x00#8] ∧
    Assembler.assemble ["ADD foo".toList] = .error (.invalidLabel "foo".toList) ∧
    Assembler.assemble ["ADD 5".toList] = .error .notStated := by decide

/-- R83. -/
theorem test_listing :
    Assembler.listingLine (.instr (.push 4660#16)) = some "PUSH 4660".toList ∧
    Assembler.listingLine (.instr .halt) = some "HALT".toList ∧
    Assembler.listingLine (.instr (.jmp 65535#16)) = some "JMP 65535".toList ∧
    Assembler.listingLine (.invalidOpcode 0x19#8) = some "INVALID OPCODE".toList ∧
    renderPrinted 65535#16 = "65535" := by decide

/-! ### Witnesses: for each obligation with hypotheses, states and operands that meet them, clause by clause -/

theorem placed_push (k : Nat) (b : Byte) (h : (encode (.push 0x1234#16))[k]? = some b) :
    (running [0x01#8, 0x34#8, 0x12#8] []).readByte (0 + k) = some b := by
  match k, h with
  | 0, h => exact h
  | 1, h => exact h
  | 2, h => exact h

/-- The instruction fills the program to its last byte. -/
theorem witness_StepRunsTheInstructionAtPc :
    (running [0x01#8, 0x34#8, 0x12#8] []).mode = .running ∧
    ∀ (k : Nat) (b : Byte), (encode (.push 0x1234#16))[k]? = some b →
      (running [0x01#8, 0x34#8, 0x12#8] []).readByte
        ((running [0x01#8, 0x34#8, 0x12#8] []).pc.toNat + k) = some b :=
  ⟨rfl, placed_push⟩

/-- Both sides of both equivalences occur, at the byte values 24 and 25. -/
theorem witness_DecodingReadsExactlyTheEncoding :
    decode [0x18#8, 0xFF#8] = .instr .halt ∧ (encode .halt).isPrefixOf [0x18#8, 0xFF#8] = true ∧
    decode [0x19#8] = .invalidOpcode 0x19#8 ∧ 25 ≤ (0x19#8).toNat := by decide

/-- A stream on each side of the equivalence. -/
theorem witness_EncodedProgramsAreWholeInstructions :
    (wholeInstructions [0x14#8, 0x06#8, 0x00#8, 0x18#8] = true ∧
      [0x14#8, 0x06#8, 0x00#8, 0x18#8] = [Instr.jmp 6#16, Instr.halt].flatMap encode) ∧
    wholeInstructions [0x18#8, 0x14#8, 0x06#8] = false := by decide

theorem witness_FetchAndDecodeFollowTheStages :
    (running [] []).progSize.toNat ≤ (running [] []).pc.toNat ∧
    (running [0x00#8] []).pc.toNat < (running [0x00#8] []).progSize.toNat ∧
    ((running [0x19#8] []).readByte 0 = some 0x19#8 ∧ decodeByte 0x19#8 = none) ∧
    ((running [0x18#8] []).readByte 0 = some 0x18#8 ∧ decodeByte 0x18#8 = some .halt ∧ Opcode.halt.arity = 0) ∧
    ((running [0x04#8, 0x00#8] []).readByte 0 = some 0x04#8 ∧ decodeByte 0x04#8 = some .call ∧ Opcode.call.arity = 1 ∧
      (running [0x04#8, 0x00#8] []).progSize.toNat < 0 + 3) ∧
    0 + 3 ≤ (running [0x04#8, 0x00#8, 0x00#8] []).progSize.toNat := by decide

theorem witness_IllegalOpcodeByteFaults :
    (running [0x19#8] []).mode = .running ∧
    (running [0x19#8] []).readByte (running [0x19#8] []).pc.toNat = some 0x19#8 ∧ 25 ≤ (0x19#8).toNat ∧
    (running [0xFF#8] []).readByte (running [0xFF#8] []).pc.toNat = some 0xFF#8 := by decide

/-- One operand byte missing, and both missing. -/
theorem witness_TruncatedInstructionFaults :
    (running [0x01#8, 0x05#8] []).readByte 0 = some 0x01#8 ∧ (running [0x01#8, 0x05#8] []).progSize.toNat < 0 + 3 ∧
    (running [0x16#8] []).readByte 0 = some 0x16#8 ∧ (running [0x16#8] []).progSize.toNat < 0 + 3 := by decide

theorem witness_PcNeverWraps : fetch (running [0x14#8, 0x06#8, 0x00#8] []) = .instr (.jmp 6#16) := by decide

theorem witness_PushPushesItsOperand :
    (running [] []).stk.length = 0 ∧ (running [] [9#16]).stk.length = 1 ∧
    (running [0x01#8, 0x05#8] []).mode = .running ∧ (running [0x01#8, 0x05#8] []).readByte 0 = some 0x01#8 ∧
    (running [0x01#8, 0x05#8] []).progSize.toNat < 0 + 3 := by decide

theorem witness_LoadPushesReg : (running [] []).stk.length = 0 ∧ (running [] [9#16]).stk.length = 1 := by decide

theorem witness_PopMovesTheTopIntoReg :
    (running [] [9#16]).stk = 9#16 :: [] ∧ (running [] []).stk.length < 1 := by decide

theorem witness_NegComplementsTheTop :
    (running [] [0#16]).stk = 0#16 :: [] ∧ (running [] []).stk.length < 1 := by decide

theorem witness_PrintEmitsTheTopAndKeepsIt :
    (running [] [8#16]).stk = 8#16 :: [] ∧ (running [] []).stk.length < 1 := by decide

theorem witness_AddWrapsTheSum :
    (running [] [1#16, 65535#16]).stk = 1#16 :: 65535#16 :: [] ∧ (running [] [9#16]).stk.length < 2 := by decide

theorem witness_SubTakesTheTopFromTheWordUnderIt :
    (running [] [5#16, 3#16]).stk = 5#16 :: 3#16 :: [] ∧ (running [] [9#16]).stk.length < 2 := by decide

theorem witness_MulKeepsTheLowHalf :
    (running [] [300#16, 300#16]).stk = 300#16 :: 300#16 :: [] ∧ (running [] [9#16]).stk.length < 2 := by decide

theorem witness_LogicInstructionsWorkBitByBit :
    (running [] [0x00FF#16, 0x0F0F#16]).stk = 0x00FF#16 :: 0x0F0F#16 :: [] ∧ (running [] [9#16]).stk.length < 2 := by decide

theorem witness_EquTestsEquality :
    (running [] [5#16, 5#16]).stk = 5#16 :: 5#16 :: [] ∧ (running [] [9#16]).stk.length < 2 := by decide

theorem witness_NequTestsInequality :
    (running [] [3#16, 5#16]).stk = 3#16 :: 5#16 :: [] ∧ (running [] [9#16]).stk.length < 2 := by decide

theorem witness_GtTestsWhetherTheTopIsGreater :
    (running [] [65535#16, 1#16]).stk = 65535#16 :: 1#16 :: [] ∧ (running [] [9#16]).stk.length < 2 := by decide

theorem witness_GteqTestsWhetherTheTopIsNotLess :
    (running [] [5#16, 5#16]).stk = 5#16 :: 5#16 :: [] ∧ (running [] [9#16]).stk.length < 2 := by decide

theorem witness_LtTestsWhetherTheTopIsLess :
    (running [] [1#16, 65535#16]).stk = 1#16 :: 65535#16 :: [] ∧ (running [] [9#16]).stk.length < 2 := by decide

theorem witness_LteqTestsWhetherTheTopIsNotGreater :
    (running [] [5#16, 5#16]).stk = 5#16 :: 5#16 :: [] ∧ (running [] [9#16]).stk.length < 2 := by decide

theorem witness_DivDividesByTheTop :
    ((running [] [3#16, 10#16]).stk = 3#16 :: 10#16 :: [] ∧ (3#16 : Word) ≠ 0#16) ∧
    (running [] [0#16, 10#16]).stk = 0#16 :: 10#16 :: [] ∧ (running [] [0#16]).stk.length < 2 := by decide

theorem witness_ModTakesTheTopModuloTheWordUnderIt :
    ((running [] [17#16, 5#16]).stk = 17#16 :: 5#16 :: [] ∧ (5#16 : Word) ≠ 0#16) ∧
    (running [] [10#16, 0#16]).stk = 10#16 :: 0#16 :: [] ∧ (running [] [0#16]).stk.length < 2 := by decide

theorem witness_JmpSetsPcToItsOperand :
    (running [0x14#8, 0x03#8, 0x00#8] []).mode = .running ∧
    (running [0x14#8, 0x03#8, 0x00#8] []).progSize.toNat ≤ (3#16).toNat ∧
    ∃ t, exec (.jmp 3#16) (running [0x14#8, 0x03#8, 0x00#8] []) = .next t :=
  ⟨rfl, by decide, _, rfl⟩

/-- A zero word, the largest word, and an empty stack. -/
theorem witness_JmpzPopsAndBranchesOnZero :
    (running [] [0#16]).stk = 0#16 :: [] ∧ (running [] [65535#16]).stk = 65535#16 :: [] ∧
    (running [] []).stk.length < 1 := by decide

theorem witness_JmpnzPopsAndBranchesOnNonzero :
    (running [] [0#16]).stk = 0#16 :: [] ∧ (running [] [65535#16]).stk = 65535#16 :: [] ∧
    (running [] []).stk.length < 1 := by decide

/-- Index 0 is below `NCALL` in every build; index 1 is the first bad one of a table of one entry. -/
theorem witness_CallPopsItsArgumentAndSendsIt :
    ((running [] [100#16]).stk = 100#16 :: [] ∧ (0#16 : Word).toNat < Config.ncall) ∧ 1 ≤ (1#16 : Word).toNat ∧
    (running [] []).stk.length < 1 ∧
    (running [0x04#8, 0x00#8, 0x00#8] [100#16]).mode = .running ∧
    fetch (running [0x04#8, 0x00#8, 0x00#8] [100#16]) = .instr (.call 0#16) := by decide

theorem witness_HaltStopsTheEngine : ∃ t, exec .halt (running [0x18#8] [8#16]) = .next t :=
  ⟨_, rfl⟩

theorem witness_NopOnlyAdvancesPc :
    (running [0x00#8] []).mode = .running ∧ (running [0x00#8] []).readByte (running [0x00#8] []).pc.toNat = some 0x00#8 := by
  decide

theorem witness_FaultsArePrecise :
    ∃ t r, (running [0x02#8] []).mode = .running ∧ (running [0x02#8] []).fault = none ∧
      step (running [0x02#8] []) = .next t ∧ t.fault = some r :=
  ⟨_, _, rfl, rfl, rfl, rfl⟩

/-- Depth 1 for an instruction that needs two words, and depth 2. -/
theorem witness_StackUnderflowExactlyWhenWordsAreMissing :
    (∃ t r, (running [] [9#16]).fault = none ∧ exec .add (running [] [9#16]) = .next t ∧ t.fault = some r ∧
      r.kind = .stackUnderflow) ∧
    ∃ t, exec .add (running [] [9#16, 8#16]) = .next t ∧ t.fault = none :=
  ⟨⟨_, _, rfl, rfl, rfl, rfl⟩, _, rfl, rfl⟩

theorem witness_DivideByZeroExactlyOnZeroDivisor :
    (∃ t r, (running [] [0#16, 10#16]).fault = none ∧ exec .div (running [] [0#16, 10#16]) = .next t ∧
      t.fault = some r ∧ r.kind = .divideByZero) ∧
    (∃ t r, exec .mod (running [] [10#16, 0#16]) = .next t ∧ t.fault = some r ∧ r.kind = .divideByZero) ∧
    ∃ t, exec .mod (running [] [0#16, 10#16]) = .next t ∧ t.fault = none :=
  ⟨⟨_, _, rfl, rfl, rfl, rfl⟩, ⟨_, _, rfl, rfl, rfl⟩, _, rfl, rfl⟩

/-- A `CALL` that completes; where it faults depends on `NCALL`, which is open, so that side is shown on a table of one entry. -/
theorem witness_InvalidNativeIndexExactlyOnBadIndex :
    (∃ t, (running [] [100#16]).fault = none ∧ exec (.call 0#16) (running [] [100#16]) = .next t ∧ t.fault = none) ∧
    ∃ t r, callWith 1 1#16 (running [] [100#16]) = .next t ∧ t.fault = some r ∧ r.kind = .invalidNativeIndex :=
  ⟨⟨{ running [] [] with pc := 3#16, calls := [(0#16, 100#16)] }, rfl, rfl, rfl⟩, _, _, rfl, rfl, rfl⟩

/-- An instruction that faults; a stack at its capacity and one word below it; and an instruction that is no push. -/
theorem witness_StackOverflowOnlyWithAFiniteDepth :
    (∃ t r, (running [] []).fault = none ∧ exec .pop (running [] []) = .next t ∧ t.fault = some r) ∧
    (running [] [9#16]).stk.length = 1 ∧ (running [] []).stk.length < 1 ∧
    ∃ t, exec .neg (running [] [9#16]) = .next t :=
  ⟨⟨_, _, rfl, rfl, rfl⟩, by decide, by decide, _, rfl⟩

theorem witness_NoStepUnlessRunning :
    State.reset.mode ≠ .running ∧ { State.reset with mode := .halted }.mode ≠ .running := by decide

/-- All three outcomes occur. -/
theorem witness_StepHasOneOfThreeOutcomes :
    (∃ t, (running [0x00#8] []).mode = .running ∧ (running [0x00#8] []).fault = none ∧
      step (running [0x00#8] []) = .next t ∧ t.mode = .running) ∧
    (∃ t, step (running [0x18#8] []) = .next t ∧ t.mode = .halted ∧ t.fault = none) ∧
    ∃ t, step (running [0x02#8] []) = .next t ∧ t.mode = .halted ∧ t.fault.isSome = true :=
  ⟨⟨_, rfl, rfl, rfl, rfl⟩, ⟨_, rfl, rfl, rfl⟩, _, rfl, rfl, rfl⟩

theorem witness_OnlyPopWritesRegAndOnlyLoadReadsIt :
    (∃ t, exec .neg (running [] [9#16] 5#16) = .next t ∧ Instr.neg ≠ .pop) ∧
    ∃ t, Instr.pop ≠ .load ∧ (running [] [9#16] 5#16).fault = none ∧ exec .pop (running [] [9#16] 5#16) = .next t ∧
      t.fault = none :=
  ⟨⟨_, rfl, by decide⟩, _, by decide, rfl, rfl, rfl⟩

theorem witness_NoStepChangesTheProgram : ∃ t, step (running [0x00#8] []) = .next t :=
  ⟨_, rfl⟩

/-- The two instructions that write a stream, and one that writes neither. -/
theorem witness_OnlyPrintAndCallWriteTheStreams :
    (∃ t, exec .print (running [] [8#16]) = .next t ∧ t.prints = [8#16]) ∧
    (∃ t, exec (.call 0#16) (running [] [8#16]) = .next t ∧ t.calls = [(0#16, 8#16)]) ∧
    ∃ t, exec .neg (running [] [8#16]) = .next t ∧ t.prints = [] ∧ t.calls = [] :=
  ⟨⟨_, rfl, rfl⟩, ⟨{ running [] [] with pc := 3#16, calls := [(0#16, 8#16)] }, rfl, rfl⟩, _, rfl, rfl, rfl⟩

theorem witness_StepDoesNotReadTheStreams : (running [0x17#8] [8#16]).mode = .running := rfl

/-- Each form of the branch, taken, with a target equal to `PROG_SIZE`. -/
theorem witness_BadBranchTargetFaultsOneStepLater :
    ((running [0x14#8, 0x03#8, 0x00#8] []).mode = .running ∧ (running [0x14#8, 0x03#8, 0x00#8] []).fault = none ∧
      fetch (running [0x14#8, 0x03#8, 0x00#8] []) = .instr (.jmp 3#16) ∧
      (running [0x14#8, 0x03#8, 0x00#8] []).progSize.toNat ≤ (3#16).toNat) ∧
    (fetch (running [0x15#8, 0x03#8, 0x00#8] [0#16]) = .instr (.jmpz 3#16) ∧
      (running [0x15#8, 0x03#8, 0x00#8] [0#16]).stk.head? = some 0#16) ∧
    (fetch (running [0x16#8, 0x03#8, 0x00#8] [1#16]) = .instr (.jmpnz 3#16) ∧
      (running [0x16#8, 0x03#8, 0x00#8] [1#16]).stk.head? = some 1#16 ∧ (1#16 : Word) ≠ 0#16) := by decide

theorem witness_ComparisonsAreRelated : (running [] [3#16, 5#16]).stk = 3#16 :: 5#16 :: [] := rfl

/-- A running engine on a `NOP` and a `PRINT` meets the invariant, and steps. -/
theorem witness_EveryStepKeepsTheInvariant :
    (running [0x00#8, 0x17#8] [8#16]).Inv ∧ ∃ t, step (running [0x00#8, 0x17#8] [8#16]) = .next t :=
  ⟨⟨⟨by decide, by decide⟩, (fun _ h => nomatch h), (fun h => nomatch h), fun _ => by decide, (fun _ h => nomatch h)⟩, _, rfl⟩

/-- A session that meets the invariant, with an event of each sort that is possible in it or in its waiting form. -/
theorem witness_EverySessionKeepsTheInvariant :
    ((Session.mk (running [0x00#8, 0x17#8] [8#16]) false).Inv ∧ (Session.mk (running [0x00#8, 0x17#8] [8#16]) true).Inv) ∧
    ((Session.mk (running [0x00#8, 0x17#8] [8#16]) false).next .engineStep).isSome = true ∧
    ((Session.mk (running [0x00#8, 0x17#8] [8#16]) false).next (.host .stop)).isSome = true ∧
    ((Session.mk (running [0x00#8, 0x17#8] [8#16]) true).next .complete).isSome = true :=
  ⟨⟨⟨witness_EveryStepKeepsTheInvariant.1, fun _ => rfl⟩, witness_EveryStepKeepsTheInvariant.1, fun _ => rfl⟩, by decide⟩

/-- Load, start, three steps, one of them a native call, its completion, and a stop. -/
theorem test_session_of_a_whole_run :
    (Session.fresh.run
      [.host (.load (some [0x03#8, 0x04#8, 0x00#8, 0x00#8, 0x00#8])), .host .start, .engineStep, .engineStep, .complete,
        .engineStep, .host .stop]).isSome = true := by decide

/-- A faulted engine, and a host that tries to go on. -/
theorem witness_AFaultedRunStaysAsItIsUntilReset :
    ((running [0x02#8] []).enterFault .stackUnderflow 0#16).mode = .halted ∧
    ((running [0x02#8] []).enterFault .stackUnderflow 0#16).fault ≠ none ∧
    Event.host .reset ∉ [Event.host .start, Event.host .stop, Event.host (.preloadPc 0#16)] ∧
    ((Session.mk ((running [0x02#8] []).enterFault .stackUnderflow 0#16) false).run
      [.host .start, .host .stop, .host (.preloadPc 0#16)]).isSome = true := by decide

theorem witness_LoadReplacesTheProgramOrFails (bytes : List Byte) :
    State.reset.mode = .idle ∧ (running [] []).mode ≠ .idle ∧ 0 < [0x00#8].length ∧ [0x00#8].length ≤ 65535 ∧
    (bytes = List.replicate 65536 0x00#8 → 65535 < bytes.length) ∧
    (bytes = List.replicate 65535 0x00#8 → 0 < bytes.length ∧ bytes.length ≤ 65535) := by
  refine ⟨rfl, by decide, by decide, by decide, fun h => ?_, fun h => ?_⟩ <;> rw [h, List.length_replicate] <;> omega

theorem witness_PreloadStartAndStop :
    State.reset.mode = .idle ∧ State.reset.progSize.toNat = 0 ∧
    ({ State.reset with progSize := 1#16 }.mode = .idle ∧ 0 < { State.reset with progSize := 1#16 }.progSize.toNat) ∧
    (running [0x00#8] []).mode = .running ∧ (running [0x00#8] []).mode ≠ .idle ∧ State.reset.mode ≠ .running := by decide

theorem witness_ModeChangesOnlyAlongTheStateMachine :
    ((running [] []).mode ≠ .idle ∧ State.reset.mode ≠ .running) ∧
    (hostOp .start State.reset).2 ≠ .ok ∧
    (hostOp .stop (running [] [])).1.mode ≠ (running [] []).mode ∧
    ∃ t, step (running [0x18#8] []) = .next t ∧ t.mode ≠ (running [0x18#8] []).mode :=
  ⟨by decide, by decide, by decide, _, rfl, by decide⟩

theorem witness_StatusPortShowsTheStateWhenNotRunning :
    (running [] []).mode = .running ∧ State.reset.mode ≠ .running := by decide

/-- A program that halts at its first step, and one that is still running after it. -/
theorem witness_RunReturnsTheOutcomeOfTheHaltedState :
    (0 < [0x18#8].length ∧ [0x18#8].length ≤ 65535) ∧
    (∃ t, Sys2Proof.core.run 1 (running [0x18#8] []) = .next t ∧ t.mode = .halted) ∧
    ∃ t, Sys2Proof.core.run 1 (running [0x00#8] []) = .next t ∧ t.mode ≠ .halted :=
  ⟨by decide, ⟨_, rfl, rfl⟩, _, rfl, by decide⟩

/-- A waiting session; and two steps, one that sends a call and one that does not. -/
theorem witness_NothingStepsDuringANativeCall :
    (Session.mk (running [] []) true).awaiting = true ∧
    (∃ q, (Session.mk (running [0x04#8, 0x00#8, 0x00#8] [100#16]) false).next .engineStep = some (q, none) ∧
      q.awaiting = true) ∧
    ∃ q, (Session.mk (running [0x00#8] []) false).next .engineStep = some (q, none) ∧ q.awaiting = false :=
  ⟨rfl, ⟨{ machine := { running [0x04#8, 0x00#8, 0x00#8] [] with pc := 3#16, calls := [(0#16, 100#16)] }, awaiting := true },
    by decide, rfl⟩, _, rfl, rfl⟩

end Sys2Proof.Tests
end

section
/-! SUPPORT. What a step can do, said once for all statements about steps: `exec_next_cases` for an instruction, `step_result`
for a whole step, fetch faults included. -/

namespace Sys2Proof.Machine

/-- The inversion of `exec`: a next state is a completion or a fault's entry. -/
theorem exec_next_cases {i : Instr} {s t : State} (h : exec i s = .next t) :
    Completed i s t ∨ ∃ k info, Raises i s k info ∧ t = s.enterFault k info := by
  have result := exec_result i s
  rw [h] at result
  cases result with
  | completed _ hc => exact .inl hc
  | faulted hr => exact .inr ⟨_, _, hr, rfl⟩

/-- A step of a running engine raised a fault, in fetch (R181, R184) or in execution. -/
inductive StepRaises (s : State) : FaultKind → Word → Prop
  | inExec {i : Instr} {k : FaultKind} {info : Word} (found : fetch s = .instr i) (h : Raises i s k info) :
      StepRaises s k info
  | invalidOpcode {b : Byte} (found : fetch s = .invalidOpcode b) : StepRaises s .invalidOpcode (b.setWidth 16)
  | outOfBounds (found : fetch s = .outOfBounds) : StepRaises s .fetchOutOfBounds 0#16

/-- What `step` answers: the engine stands still (R90), the instruction at `pc` completed, or a fault was entered. -/
inductive StepResult (s : State) : Outcome → Prop
  | stands (still : s.mode ≠ .running) : StepResult s (.next s)
  | completed {i : Instr} {t : State} (running : s.mode = .running) (found : fetch s = .instr i)
      (enough : wordsNeeded i ≤ s.stk.length) (h : Completed i s t) : StepResult s (.next t)
  | faulted {k : FaultKind} {info : Word} (running : s.mode = .running) (h : StepRaises s k info) :
      StepResult s (.next (s.enterFault k info))

/-- The step's result is that of the instruction at `pc`. -/
theorem StepResult.of_exec {s : State} {i : Instr} {o : Outcome} (running : s.mode = .running)
    (found : fetch s = .instr i) (h : ExecResult i s o) : StepResult s o := by
  cases h with
  | completed enough h => exact .completed running found enough h
  | faulted h => exact .faulted running (.inExec found h)

/-- The one inversion lemma of `step`. -/
theorem step_result (s : State) : StepResult s (step s) := by
  by_cases running : s.mode = .running
  · rw [step_running running]
    match found : fetch s with
    | .instr i =>
      rw [stepRunning_instr found]
      exact .of_exec running found (exec_result i s)
    | .invalidOpcode b => rw [stepRunning_invalid found]; exact .faulted running (.invalidOpcode found)
    | .outOfBounds => rw [stepRunning_outOfBounds found]; exact .faulted running (.outOfBounds found)
  · rw [step_not_running running]
    exact .stands running

/-- The inversion of `step`, for a given next state. -/
theorem stepResult_of_step {s t : State} (h : step s = .next t) : StepResult s (.next t) :=
  h ▸ step_result s

end Sys2Proof.Machine
end

section
/-! PROOF. The invariant holds at reset and every step keeps it (O49, O50). -/

namespace Sys2Proof.Machine

/-- The byte of an illegal opcode is 25 to 255 (R69, R181). -/
theorem invalidOpcode_info_bounds {s : State} {b : Byte} (found : fetch s = .invalidOpcode b) :
    25 ≤ (b.setWidth 16).toNat ∧ (b.setWidth 16).toNat ≤ 255 := by
  have illegal : 25 ≤ b.toNat := (decodeByte_eq_none_iff b).mp (fetch_invalid found)
  have := b.isLt
  simp only [BitVec.toNat_setWidth]
  omega

/-- Every fault a step raises records the `info` that belongs to its kind (R28). -/
theorem StepRaises.infoOk {s : State} {r : FaultRecord} {k : FaultKind} {info : Word} (h : StepRaises s k info)
    (hk : r.kind = k) (hi : r.info = info) : r.infoOk := by
  unfold FaultRecord.infoOk
  rw [hk, hi]
  cases h with
  | inExec _ h =>
    cases h with
    | underflow | divByZero | modByZero => rfl
    | nativeIndex _ _ outside => exact outside
  | invalidOpcode found => exact invalidOpcode_info_bounds found
  | outOfBounds => rfl

/-- On the unbounded stack no step raises `StackOverflow` (R186). -/
theorem StepRaises.ne_stackOverflow {s : State} {k : FaultKind} {info : Word} (h : StepRaises s k info) :
    k ≠ .stackOverflow := by
  cases h with
  | inExec _ h => cases h <;> nofun
  | invalidOpcode => nofun
  | outOfBounds => nofun

/-- A running engine has no fault record: a record belongs to a halted one. -/
theorem State.Inv.fault_eq_none {s : State} (inv : s.Inv) (running : s.mode = .running) : s.fault = none := by
  match hf : s.fault with
  | none => rfl
  | some r =>
    have halted : s.mode = .halted := (inv.fault r hf).1
    rw [running] at halted
    cases halted

/-- What was sent before is in the table, and so is what this instruction sent. -/
theorem Completed.callsOk {i : Instr} {s t : State} (h : Completed i s t) (before : s.callsOk) : t.callsOk := by
  unfold State.callsOk
  rcases h.calls with same | ⟨imm, v, -, inTable, -, sent⟩
  · rw [same]; exact before
  · rw [sent]
    intro c hc
    rcases List.mem_append.mp hc with old | new
    · exact before c old
    · obtain rfl := List.mem_singleton.mp new
      exact inTable

/-- An instruction that completes does not make a running engine idle. -/
theorem Completed.mode_ne_idle {i : Instr} {s t : State} (h : Completed i s t) (running : s.mode = .running) :
    t.mode ≠ .idle := by
  rw [h.mode, running]
  split <;> nofun

/-- A running engine has been started, so it has a program (R164). -/
theorem State.Inv.progSize_ne_zero {s : State} (inv : s.Inv) (running : s.mode = .running) : s.progSize ≠ 0#16 :=
  inv.started (by rw [running]; nofun)

theorem State.Inv.of_completed {i : Instr} {s t : State} (inv : s.Inv) (running : s.mode = .running)
    (h : Completed i s t) : t.Inv where
  prog := by unfold State.progOk; rw [h.prog, h.progSize]; exact inv.prog
  fault := by unfold State.faultOk; rw [h.fault, inv.fault_eq_none running]; nofun
  idle := fun idle => absurd idle (h.mode_ne_idle running)
  started := fun _ => h.progSize ▸ inv.progSize_ne_zero running
  calls := h.callsOk inv.calls

theorem State.Inv.enterFault {s : State} {k : FaultKind} {info : Word} (inv : s.Inv) (running : s.mode = .running)
    (h : StepRaises s k info) : (s.enterFault k info).Inv where
  prog := inv.prog
  fault := by
    intro r hr
    obtain rfl := Option.some.inj hr
    exact ⟨rfl, rfl, rfl, rfl, rfl, h.infoOk rfl rfl, h.ne_stackOverflow⟩
  idle := nofun
  started := fun _ => inv.progSize_ne_zero running
  calls := inv.calls

/-- Settles O50, by the three results of a step: it stands still, completes an instruction, or enters a fault. -/
theorem everyStepKeepsTheInvariant : Obligations.EveryStepKeepsTheInvariant := by
  intro s t inv h
  cases stepResult_of_step h with
  | stands => exact inv
  | completed running _ _ done => exact inv.of_completed running done
  | faulted running raised => exact inv.enterFault running raised

/-- Settles O49. -/
theorem resetMeetsTheInvariant : Obligations.ResetMeetsTheInvariant where
  prog := ⟨Memory.wf_nil, nofun⟩
  fault := nofun
  idle := fun _ => ⟨rfl, rfl, rfl, rfl, rfl⟩
  started := fun notIdle => absurd rfl notIdle
  calls := nofun

end Sys2Proof.Machine
end

section
/-! PROOF. Where an instruction's bytes lie (O10). -/

namespace Sys2Proof

/-- An instruction of format `Z` is one byte long (R60, R61). -/
theorem Instr.size_of_plain {o : Opcode} {i : Instr} (h : o.shape = .plain i) : i.size = 1 := by
  cases o <;> cases h <;> rfl

/-- An instruction of format `I` is three bytes long, whatever its operand (R60, R61). -/
theorem Instr.size_of_withOperand {o : Opcode} {build : Word → Instr} (h : o.shape = .withOperand build) (imm : Word) :
    (build imm).size = 3 := by
  cases o <;> cases h <;> rfl

/-- A word can be read only where its second byte exists. -/
theorem isSome_last_of_memRead_two {read : Nat → Option Byte} {a v : Nat} (h : memRead read a 2 = some v) :
    (read (a + 1)).isSome = true := by
  rw [memRead_two] at h
  split at h
  · next hi => rw [hi]; rfl
  · cases h

/-- An instruction is decoded only where its last byte exists (R91, R92). -/
theorem isSome_last_of_decodeAt {read : Nat → Option Byte} {a : Nat} {i : Instr} (h : decodeAt read a = .instr i) :
    (read (a + (i.size - 1))).isSome = true := by
  unfold decodeAt at h
  split at h
  · cases h
  next b opcodeByte =>
  split at h
  · cases h
  split at h
  · next shape =>
    cases h
    simp [Instr.size_of_plain shape, opcodeByte]
  next build shape =>
  split at h
  · cases h
  next v operand =>
  cases h
  rw [Instr.size_of_withOperand shape]
  exact isSome_last_of_memRead_two operand

namespace Machine

/-- R23: an instruction that fetch finds lies below `PROG_SIZE` as a whole. -/
theorem fetch_instr_le_progSize {s : State} {i : Instr} (found : fetch s = .instr i) :
    s.pc.toNat + i.size ≤ s.progSize.toNat := by
  have last : s.readByte (s.pc.toNat + (i.size - 1)) ≠ none :=
    Option.isSome_iff_ne_none.mp (isSome_last_of_decodeAt found)
  rw [Ne, State.readByte_eq_none_iff] at last
  have := i.size_pos
  omega

/-- Where the sum is a word, the advance does not wrap. -/
theorem State.advance_pc_toNat {s : State} {o : Opcode} (h : s.pc.toNat + o.size < 65536) :
    (s.advance o).pc.toNat = s.pc.toNat + o.size := by
  simp only [State.advance_pc, BitVec.toNat_add, BitVec.toNat_ofNat]
  omega

/-- Settles O10: the last byte of a fetched instruction exists, so it lies below `PROG_SIZE`, which is a word. -/
theorem pcNeverWraps : Obligations.PcNeverWraps := by
  intro s i found
  have inside : s.pc.toNat + i.size ≤ s.progSize.toNat := fetch_instr_le_progSize found
  have word : s.progSize.toNat < 65536 := s.progSize.isLt
  exact ⟨inside, Nat.le_of_lt_succ word, State.advance_pc_toNat (Nat.lt_of_le_of_lt inside word)⟩

end Machine

end Sys2Proof
end

section
/-! PROOF. What steps and instructions leave alone: the program, the streams, the scratch register (O43, O44, O45). -/

namespace Sys2Proof.Machine

/-- What a read of the program space answers depends on the program and its length alone. -/
theorem State.readByte_congr {s t : State} (prog : t.prog = s.prog) (size : t.progSize = s.progSize) (a : Nat) :
    t.readByte a = s.readByte a := by
  rw [State.readByte, State.readByte, prog, size]

theorem step_program {s t : State} (h : step s = .next t) : t.prog = s.prog ∧ t.progSize = s.progSize := by
  cases stepResult_of_step h with
  | stands => exact ⟨rfl, rfl⟩
  | completed _ _ _ done => exact ⟨done.prog, done.progSize⟩
  | faulted => exact ⟨rfl, rfl⟩

/-- Settles O44. -/
theorem noStepChangesTheProgram : Obligations.NoStepChangesTheProgram := by
  intro s t h
  obtain ⟨prog, size⟩ := step_program h
  exact ⟨prog, size, State.readByte_congr prog size⟩

/-- Settles O45: a completed `PRINT` or `CALL` appends its entry, everything else, faults included, none. -/
theorem onlyPrintAndCallWriteTheStreams : Obligations.OnlyPrintAndCallWriteTheStreams := by
  intro i s t h
  rcases exec_next_cases h with done | ⟨k, info, -, rfl⟩
  · refine ⟨done.prints, done.calls.imp_right ?_⟩
    rintro ⟨imm, v, isCall, -, top, sent⟩
    exact ⟨imm, v, isCall, top, sent⟩
  · exact ⟨.inl rfl, .inl rfl⟩

/-! ### The scratch register is not read -/

/-- An operation that does not read `reg`: where it leaves no fault record (which would show `reg`, R28), it does the same with
any other value there, and keeps that value. -/
def IgnoresReg (op : State → Outcome) : Prop :=
  ∀ (s t : State) (v : Word), op s = .next t → t.fault = none → op (s.setReg v) = .next (t.setReg v)

theorem IgnoresReg.next {f : State → State} (h : ∀ s v, f (s.setReg v) = (f s).setReg v) :
    IgnoresReg fun s => .next (f s) := by
  intro s t v done _
  cases done
  exact congrArg Host.Outcome.next (h s v)

theorem IgnoresReg.raise (k : FaultKind) (info : Word) : IgnoresReg (raise k info) := by
  intro s t v raised noFault
  cases raised
  cases noFault

theorem IgnoresReg.ite {c : Prop} [Decidable c] {yes no : State → Outcome} (hyes : IgnoresReg yes)
    (hno : IgnoresReg no) : IgnoresReg fun s => if c then yes s else no s := by
  by_cases hc : c
  · simpa only [if_pos hc] using hyes
  · simpa only [if_neg hc] using hno

theorem IgnoresReg.withTop {go : State → Word → List Word → Outcome}
    (h : ∀ a rest, IgnoresReg fun s => go s a rest) : IgnoresReg fun s => withTop s (go s) := by
  intro s t v
  beta_reduce
  match hs : s.stk with
  | a :: rest =>
    rw [withTop_cons hs, withTop_cons (s := s.setReg v) hs]
    exact h a rest s t v
  | [] =>
    rw [withTop_nil hs, withTop_nil (s := s.setReg v) hs]
    exact IgnoresReg.raise .stackUnderflow 0#16 s t v

theorem IgnoresReg.withTopTwo {go : State → Word → Word → List Word → Outcome}
    (h : ∀ a b rest, IgnoresReg fun s => go s a b rest) : IgnoresReg fun s => withTopTwo s (go s) := by
  intro s t v
  beta_reduce
  match hs : s.stk with
  | a :: b :: rest =>
    rw [withTopTwo_cons hs, withTopTwo_cons (s := s.setReg v) hs]
    exact h a b rest s t v
  | [_] | [] =>
    have short : s.stk.length < 2 := by simp [hs]
    rw [withTopTwo_short short, withTopTwo_short (s := s.setReg v) short]
    exact IgnoresReg.raise .stackUnderflow 0#16 s t v

theorem IgnoresReg.binaryOp (o : Opcode) (f : Word → Word → Word) : IgnoresReg (binaryOp o f) :=
  .withTopTwo fun _ _ _ => .next fun _ _ => rfl

theorem IgnoresReg.divisionOp (o : Opcode) (divisor f : Word → Word → Word) : IgnoresReg (divisionOp o divisor f) :=
  .withTopTwo fun _ _ _ => .ite (.raise _ _) (.next fun _ _ => rfl)

theorem IgnoresReg.branchOn (o : Opcode) (taken : Word → Bool) (target : Word) :
    IgnoresReg (branchOn o taken target) :=
  .withTop fun c _ => .next fun _ _ => by cases taken c <;> rfl

theorem IgnoresReg.callWith (n : Nat) (imm : Word) : IgnoresReg (callWith n imm) :=
  .withTop fun _ _ => .ite (.raise _ _) (.next fun _ _ => rfl)

/-- R24: of all instructions only `LOAD` reads `reg`. `POP` does not read it but does not keep it either, so it stands apart. -/
theorem exec_ignoresReg {i : Instr} (notLoad : i ≠ .load) (notPop : i ≠ .pop) : IgnoresReg (exec i) := by
  cases i with
  | load => exact absurd rfl notLoad
  | pop => exact absurd rfl notPop
  | nop => exact .next fun _ _ => rfl
  | halt => exact .next fun _ _ => rfl
  | push => exact .next fun _ _ => rfl
  | jmp => exact .next fun _ _ => rfl
  | neg => exact .withTop fun _ _ => .next fun _ _ => rfl
  | print => exact .withTop fun _ _ => .next fun _ _ => rfl
  | call => exact .callWith _ _
  | jmpz => exact .branchOn _ _ _
  | jmpnz => exact .branchOn _ _ _
  | div => exact .divisionOp _ _ _
  | mod => exact .divisionOp _ _ _
  | equ => exact .binaryOp _ _
  | nequ => exact .binaryOp _ _
  | gt => exact .binaryOp _ _
  | gteq => exact .binaryOp _ _
  | lt => exact .binaryOp _ _
  | lteq => exact .binaryOp _ _
  | add => exact .binaryOp _ _
  | sub => exact .binaryOp _ _
  | mul => exact .binaryOp _ _
  | xor => exact .binaryOp _ _
  | or => exact .binaryOp _ _
  | and => exact .binaryOp _ _

/-- `POP` overwrites `reg`, so what stood there makes no difference to where it ends. -/
theorem execPop_setReg {s t : State} (v : Word) (done : execPop s = .next t) (noFault : t.fault = none) :
    execPop (s.setReg v) = .next t := by
  match hs : s.stk with
  | a :: rest =>
    rw [execPop, withTop_cons hs] at done
    rw [execPop, withTop_cons (s := s.setReg v) hs]
    exact done
  | [] =>
    rw [execPop, withTop_nil hs] at done
    cases done
    cases noFault

/-- An instruction other than `POP` leaves `reg` as it is, also where it faults. -/
theorem exec_reg {i : Instr} {s t : State} (h : exec i s = .next t) (notPop : i ≠ .pop) : t.reg = s.reg := by
  rcases exec_next_cases h with done | ⟨k, info, -, rfl⟩
  · exact done.reg notPop
  · rfl

/-- Settles O43: `exec_reg` for the writes, `exec_ignoresReg` for the reads, and `POP`, which overwrites `reg`, by itself. -/
theorem onlyPopWritesRegAndOnlyLoadReadsIt : Obligations.OnlyPopWritesRegAndOnlyLoadReadsIt := by
  refine ⟨fun i s t h notPop => exec_reg h notPop, fun i s t v notLoad _ done noFault => ?_⟩
  by_cases isPop : i = .pop
  · subst isPop
    exact execPop_setReg v done noFault
  · rw [if_neg isPop]
    exact exec_ignoresReg notLoad isPop s t v done noFault

end Sys2Proof.Machine
end

section
/-! PROOF. Reset (O1). -/

namespace Sys2Proof.Machine

/-- Settles O1: the table of R34 field by field, and `reset` is accepted in every mode. -/
theorem resetGivesTheListedValues : Obligations.ResetGivesTheListedValues := by
  refine ⟨⟨rfl, rfl, rfl, rfl, rfl, rfl, fun a => ?noByte, rfl, rfl⟩, fun s => ⟨rfl, nofun⟩⟩
  case noByte => exact (State.readByte_eq_none_iff State.reset a).mpr (Nat.zero_le a)

end Sys2Proof.Machine
end

section
/-! PROOF. What the decoder finds, as a relation with one rule per way through it; that it finds an instruction exactly where the
instruction's encoding stands; and from this the statements about decoding and encoding (O3, O4, O5, O6). -/

namespace Sys2Proof

/-! ### The two formats -/

/-- Every instruction is what the registry's row of its opcode makes: the row's own instruction (format `Z`), or the row's builder
at some operand (format `I`) (R61, R66). -/
theorem Instr.made_by_shape (i : Instr) :
    i.opcode.shape = .plain i ∨ ∃ build imm, i.opcode.shape = .withOperand build ∧ build imm = i := by
  cases i with
  | push imm | call imm | jmp imm | jmpz imm | jmpnz imm => exact .inr ⟨_, imm, rfl, rfl⟩
  | _ => exact .inl rfl

theorem encode_of_plain {o : Opcode} {i : Instr} (h : o.shape = .plain i) : encode i = [o.byte] := by
  cases o <;> cases h <;> rfl

theorem encode_of_withOperand {o : Opcode} {build : Word → Instr} (h : o.shape = .withOperand build) (imm : Word) :
    encode (build imm) = [o.byte, imm.setWidth 8, (imm >>> 8).setWidth 8] := by
  rw [← operandBytes_eq]
  cases o <;> cases h <;> rfl

/-- R60: the encoder writes as many bytes as the instruction is long. -/
theorem length_encode (i : Instr) : (encode i).length = i.size := by
  rcases i.made_by_shape with plain | ⟨build, imm, withOperand, rfl⟩
  · rw [encode_of_plain plain, Instr.size_of_plain plain]; rfl
  · rw [encode_of_withOperand withOperand, Instr.size_of_withOperand withOperand]; rfl

/-- The two bytes are the low and the high byte of the word read from them (R42). -/
theorem bytes_of_word (lo hi : Byte) :
    (BitVec.ofNat 16 (lo.toNat + 256 * hi.toNat)).setWidth 8 = lo ∧
    (BitVec.ofNat 16 (lo.toNat + 256 * hi.toNat) >>> 8).setWidth 8 = hi := by
  have := lo.isLt
  have := hi.isLt
  constructor <;> apply BitVec.eq_of_toNat_eq <;>
    simp only [BitVec.toNat_setWidth, BitVec.toNat_ushiftRight, BitVec.toNat_ofNat, Nat.shiftRight_eq_div_pow] <;>
    omega

/-! ### The decoder as a relation -/

/-- What is found at `a`, one rule per way through R91 and R92; `decodeAt_eq_iff` ties it to the decoder. -/
inductive Decodes (read : Nat → Option Byte) (a : Nat) : DecodeResult → Prop
  | noByte (byte : read a = none) : Decodes read a .outOfBounds
  | illegal {b : Byte} (byte : read a = some b) (h : 25 ≤ b.toNat) : Decodes read a (.invalidOpcode b)
  | plain {o : Opcode} {i : Instr} (byte : read a = some o.byte) (shape : o.shape = .plain i) : Decodes read a (.instr i)
  | withOperand {o : Opcode} {build : Word → Instr} {lo hi : Byte} (byte : read a = some o.byte)
      (shape : o.shape = .withOperand build) (low : read (a + 1) = some lo) (high : read (a + 2) = some hi) :
      Decodes read a (.instr (build (BitVec.ofNat 16 (lo.toNat + 256 * hi.toNat))))
  | truncated {o : Opcode} {build : Word → Instr} (byte : read a = some o.byte) (shape : o.shape = .withOperand build)
      (missing : read (a + 1) = none ∨ read (a + 2) = none) : Decodes read a .outOfBounds

theorem decodes_decodeAt (read : Nat → Option Byte) (a : Nat) : Decodes read a (decodeAt read a) := by
  unfold decodeAt
  split
  · next byte => exact .noByte byte
  next b byte =>
  split
  · next unknown => exact .illegal byte ((decodeByte_eq_none_iff b).mp unknown)
  next o known =>
  rw [← byte_of_decodeByte known] at byte
  split
  · next shape => exact .plain byte shape
  next build shape =>
  rw [Config.wordBytes, memRead_two]
  match low : read (a + 1), high : read (a + 2) with
  | some lo, some hi => exact .withOperand byte shape low high
  | none, _ => exact .truncated byte shape (.inl low)
  | some _, none => exact .truncated byte shape (.inr high)

/-- The rules exclude each other, so the relation is the decoder. -/
theorem decodeAt_eq_iff {read : Nat → Option Byte} {a : Nat} {r : DecodeResult} :
    decodeAt read a = r ↔ Decodes read a r := by
  constructor
  · rintro rfl
    exact decodes_decodeAt read a
  · intro h
    cases h with
    | noByte byte => simp [decodeAt, byte]
    | illegal byte illegal => simp [decodeAt, byte, (decodeByte_eq_none_iff _).mpr illegal]
    | plain byte shape => simp [decodeAt, byte, shape]
    | withOperand byte shape low high => simp [decodeAt, byte, shape, Config.wordBytes, memRead_two, low, high]
    | truncated byte shape missing =>
      rcases missing with low | high
      · simp [decodeAt, byte, shape, Config.wordBytes, memRead_two, low]
      · simp [decodeAt, byte, shape, Config.wordBytes, memRead_two, high]

theorem decodeAt_eq_invalidOpcode_iff {read : Nat → Option Byte} {a : Nat} {b : Byte} :
    decodeAt read a = .invalidOpcode b ↔ read a = some b ∧ 25 ≤ b.toNat := by
  rw [decodeAt_eq_iff]
  constructor
  · rintro (_ | ⟨byte, illegal⟩)
    exact ⟨byte, illegal⟩
  · rintro ⟨byte, illegal⟩
    exact .illegal byte illegal

/-! ### Placed bytes -/

/-- The bytes stand at `a`, in order. -/
def BytesAt (read : Nat → Option Byte) (a : Nat) (bytes : List Byte) : Prop :=
  ∀ (k : Nat) (b : Byte), bytes[k]? = some b → read (a + k) = some b

@[simp] theorem bytesAt_nil (read : Nat → Option Byte) (a : Nat) : BytesAt read a [] := by
  simp [BytesAt]

@[simp] theorem bytesAt_cons (read : Nat → Option Byte) (a : Nat) (b : Byte) (bytes : List Byte) :
    BytesAt read a (b :: bytes) ↔ read a = some b ∧ BytesAt read (a + 1) bytes := by
  constructor
  · intro h
    exact ⟨h 0 b rfl, fun k c hc => by simpa [Nat.add_right_comm, Nat.add_assoc] using h (k + 1) c hc⟩
  · rintro ⟨first, later⟩ (_ | k) c hc
    · simpa [first] using hc
    · simpa [Nat.add_right_comm, Nat.add_assoc] using later k c hc

/-- The bytes at offset 0 of a byte string are those it begins with. -/
theorem bytesAt_zero_iff_prefix (bytes start : List Byte) :
    BytesAt (fun k => bytes[k]?) 0 start ↔ start <+: bytes := by
  simp only [BytesAt, Nat.zero_add, List.prefix_iff_getElem?]
  constructor
  · exact fun h k hk => h k _ (List.getElem?_eq_getElem hk)
  · intro h k b hb
    obtain ⟨hk, rfl⟩ := List.getElem?_eq_some_iff.mp hb
    exact h k hk

/-- An instruction is decoded exactly where its encoding stands, by the two formats in both directions. -/
theorem decodeAt_eq_instr_iff {read : Nat → Option Byte} {a : Nat} {i : Instr} :
    decodeAt read a = .instr i ↔ BytesAt read a (encode i) := by
  rw [decodeAt_eq_iff]
  constructor
  · intro h
    cases h with
    | plain byte shape => simp [encode_of_plain shape, byte]
    | @withOperand _ _ lo hi byte shape low high =>
      obtain ⟨isLow, isHigh⟩ := bytes_of_word lo hi
      simp [encode_of_withOperand shape, isLow, isHigh, byte, low, high]
  · intro h
    rcases i.made_by_shape with plain | ⟨build, imm, shape, rfl⟩
    · rw [encode_of_plain plain] at h
      exact .plain (h 0 _ rfl) plain
    · rw [encode_of_withOperand shape] at h
      have found := Decodes.withOperand (h 0 _ rfl) shape (h 1 _ rfl) (h 2 _ rfl)
      rwa [operandBytes_value] at found

theorem decode_eq_instr_iff {bytes : List Byte} {i : Instr} : decode bytes = .instr i ↔ encode i <+: bytes :=
  decodeAt_eq_instr_iff.trans (bytesAt_zero_iff_prefix bytes (encode i))

/-- Settles O4: an encoding with anything after it begins with that encoding. -/
theorem decodeOfEncodeIsTheInstruction : Obligations.DecodeOfEncodeIsTheInstruction := by
  intro i tail
  refine ⟨decode_eq_instr_iff.mpr (List.prefix_append (encode i) tail), ?length⟩
  rw [length_encode, Instr.size, Opcode.size, Config.wordBytes, Nat.mul_comm]

/-- Settles O5. -/
theorem decodingReadsExactlyTheEncoding : Obligations.DecodingReadsExactlyTheEncoding := by
  intro bytes i b
  rw [List.isPrefixOf_iff_prefix, List.head?_eq_getElem?]
  exact ⟨decode_eq_instr_iff, decodeAt_eq_invalidOpcode_iff⟩

/-! ### Streams of whole instructions -/

/-- One turn of the check of R68: a first encoding is split off. -/
theorem wholeInstructionsWithin_succ_cons {fuel : Nat} {b : Byte} {bytes : List Byte} :
    wholeInstructionsWithin (fuel + 1) (b :: bytes) = true ↔
      ∃ i rest, encode i ++ rest = b :: bytes ∧ wholeInstructionsWithin fuel rest = true := by
  rw [wholeInstructionsWithin]
  constructor
  · intro h
    split at h
    · next i found =>
      obtain ⟨rest, split⟩ := decode_eq_instr_iff.mp found
      rw [← split, ← length_encode, List.drop_left] at h
      exact ⟨i, rest, split, h⟩
    · cases h
    · cases h
  · rintro ⟨i, rest, split, h⟩
    have found : decode (b :: bytes) = .instr i := decode_eq_instr_iff.mpr ⟨rest, split⟩
    simp only [found]
    rwa [← split, ← length_encode, List.drop_left]

theorem exists_flatMap_of_wholeInstructionsWithin {fuel : Nat} {bytes : List Byte}
    (h : wholeInstructionsWithin fuel bytes = true) : ∃ is : List Instr, bytes = is.flatMap encode := by
  induction fuel generalizing bytes with
  | zero =>
    cases bytes with
    | nil => exact ⟨[], rfl⟩
    | cons => cases h
  | succ fuel ih =>
    cases bytes with
    | nil => exact ⟨[], rfl⟩
    | cons b bytes =>
      obtain ⟨i, rest, split, h⟩ := wholeInstructionsWithin_succ_cons.mp h
      obtain ⟨is, rfl⟩ := ih h
      exact ⟨i :: is, split.symm⟩

/-- The length of the stream is fuel enough, since no encoding is empty. -/
theorem wholeInstructionsWithin_flatMap (is : List Instr) {fuel : Nat} (enough : (is.flatMap encode).length ≤ fuel) :
    wholeInstructionsWithin fuel (is.flatMap encode) = true := by
  induction is generalizing fuel with
  | nil => cases fuel <;> rfl
  | cons i is ih =>
    rw [List.flatMap_cons, List.length_append, length_encode] at enough
    have := i.size_pos
    obtain ⟨fuel, rfl⟩ : ∃ f, fuel = f + 1 := ⟨fuel - 1, by omega⟩
    exact wholeInstructionsWithin_succ_cons.mpr ⟨i, is.flatMap encode, rfl, ih (by omega)⟩

/-- Settles O6, by induction on the fuel in one direction and on the instructions in the other. -/
theorem encodedProgramsAreWholeInstructions : Obligations.EncodedProgramsAreWholeInstructions := by
  intro bytes
  constructor
  · exact exists_flatMap_of_wholeInstructionsWithin
  · rintro ⟨is, rfl⟩
    exact wholeInstructionsWithin_flatMap is le_rfl

/-- Settles O3: closed byte strings, run through the decoder. -/
theorem writtenOutWordsDecode : Obligations.WrittenOutWordsDecode := by
  unfold Obligations.WrittenOutWordsDecode
  decide

end Sys2Proof
end

section
/-! PROOF. The two faults of the fetch of an instruction whose opcode byte exists (O8, O9). -/

namespace Sys2Proof.Machine

/-- Settles O8. -/
theorem illegalOpcodeByteFaults : Obligations.IllegalOpcodeByteFaults := by
  intro s b running byte illegal
  have found : fetch s = .invalidOpcode b := decodeAt_eq_invalidOpcode_iff.mpr ⟨byte, illegal⟩
  rw [step_running running, stepRunning_invalid found, BitVec.ofNat_toNat]

/-- The bytes of the five rows of format `I` (R66). -/
theorem exists_withOperand_of_byte {b : Byte}
    (h : b = 0x01#8 ∨ b = 0x04#8 ∨ b = 0x14#8 ∨ b = 0x15#8 ∨ b = 0x16#8) :
    ∃ (o : Opcode) (build : Word → Instr), o.byte = b ∧ o.shape = .withOperand build := by
  rcases h with rfl | rfl | rfl | rfl | rfl
  · exact ⟨.push, _, rfl, rfl⟩
  · exact ⟨.call, _, rfl, rfl⟩
  · exact ⟨.jmp, _, rfl, rfl⟩
  · exact ⟨.jmpz, _, rfl, rfl⟩
  · exact ⟨.jmpnz, _, rfl, rfl⟩

/-- Settles O9: the operand's second byte does not exist. -/
theorem truncatedInstructionFaults : Obligations.TruncatedInstructionFaults := by
  intro s b running byte arityOne short
  obtain ⟨o, build, rfl, shape⟩ := exists_withOperand_of_byte arityOne
  have missing : s.readByte (s.pc.toNat + 2) = none := (State.readByte_eq_none_iff s _).mpr (by omega)
  have found : fetch s = .outOfBounds := decodeAt_eq_iff.mpr (.truncated byte shape (.inr missing))
  rw [step_running running, stepRunning_outOfBounds found]

end Sys2Proof.Machine
end

section
/-! PROOF. The listing line of an instruction is one source line that assembles back to it (O59). -/

namespace Sys2Proof.Assembler

/-! ### Words: mnemonics and decimal numerals -/

/-- A piece of a line in which no character has a meaning of its own in a source line (R75, R76). -/
structure IsWord (w : Text) : Prop where
  ne_nil : w ≠ []
  alphanum : ∀ c ∈ w, c.isAlphanum = true

/-- A character that is not alphanumeric, such as a space or a `#`, is not in a word. -/
theorem IsWord.not_mem {w : Text} (h : IsWord w) {c : Char} (hc : c.isAlphanum = false) : c ∉ w := by
  intro mem
  rw [h.alphanum c mem] at hc
  cases hc

theorem IsWord.getLast?_ne_colon {w : Text} (h : IsWord w) : w.getLast? ≠ some ':' :=
  fun last => h.not_mem (c := ':') (by decide) (List.mem_of_getLast? last)

theorem isWord_mnemonic (o : Opcode) : IsWord o.mnemonic.toList := by
  cases o <;> exact ⟨by decide, List.all_eq_true.mp (by decide)⟩

theorem isDigit_eq_isDigit (c : Char) : isDigit c = c.isDigit := by
  simp [isDigit, Char.isDigit, UInt32.le_iff_toNat_le]

theorem isWord_repr (n : Nat) : IsWord n.repr.toList := by
  rw [Nat.toList_repr]
  refine ⟨Nat.toDigits_ne_nil, fun c hc => ?_⟩
  have digit : c.isDigit = true := Nat.isDigit_of_mem_toDigits (by decide) (by decide) hc
  simp [Char.isAlphanum, digit]

/-- R78: the decimal numeral of a number is read as a literal of that number. -/
theorem readOperand_repr (n : Nat) : readOperand n.repr.toList = .literal n := by
  have digits : ∀ c ∈ Nat.toDigits 10 n, isDigit c = true := fun c hc =>
    (isDigit_eq_isDigit c).trans (Nat.isDigit_of_mem_toDigits (by decide) (by decide) hc)
  have value : decimalValue (Nat.toDigits 10 n) = n := Nat.ofDigitChars_ten_toDigits
  rw [Nat.toList_repr]
  match h : Nat.toDigits 10 n with
  | [] => exact absurd h Nat.toDigits_ne_nil
  | c :: rest =>
    rw [h] at digits value
    have later : rest.all isDigit = true := List.all_eq_true.mpr fun d hd => digits d (List.mem_cons_of_mem c hd)
    rw [readOperand, if_pos (digits c List.mem_cons_self), if_pos later, value]

/-! ### Lines of one and of two words -/

/-- A character that is no space goes to the first piece. -/
theorem splitAtSpaces_cons {c : Char} {line piece : Text} {pieces : List Text} (notSpace : c ≠ ' ')
    (h : splitAtSpaces line = piece :: pieces) : splitAtSpaces (c :: line) = (c :: piece) :: pieces := by
  simp [splitAtSpaces, h, beq_false_of_ne notSpace]

theorem splitAtSpaces_word {w : Text} (h : ' ' ∉ w) : splitAtSpaces w = [w] := by
  induction w with
  | nil => rfl
  | cons c w ih =>
    obtain ⟨notSpace, later⟩ := List.ne_and_not_mem_of_not_mem_cons h
    exact splitAtSpaces_cons notSpace.symm (ih later)

theorem splitAtSpaces_append_space {w : Text} (h : ' ' ∉ w) (line : Text) :
    splitAtSpaces (w ++ ' ' :: line) = w :: splitAtSpaces line := by
  induction w with
  | nil => simp [splitAtSpaces]
  | cons c w ih =>
    obtain ⟨notSpace, later⟩ := List.ne_and_not_mem_of_not_mem_cons h
    exact splitAtSpaces_cons notSpace.symm (ih later)

/-- R75: a word alone is an instruction without an operand. -/
theorem readLine_word {m : Text} (h : IsWord m) : readLine m = .instr m none := by
  have hash : '#' ∉ m := h.not_mem (by decide)
  have tab : '\t' ∉ m := h.not_mem (by decide)
  have space : ' ' ∉ m := h.not_mem (by decide)
  simp [readLine, h.ne_nil, hash, tab, splitAtSpaces_word space, h.getLast?_ne_colon]

/-- R75: two words with a space between them are an instruction and its operand. -/
theorem readLine_two_words {m w : Text} (hm : IsWord m) (hw : IsWord w) :
    readLine (m ++ ' ' :: w) = .instr m (some (readOperand w)) := by
  have hash : '#' ∉ m ++ ' ' :: w := by simp [hm.not_mem (c := '#') (by decide), hw.not_mem (c := '#') (by decide)]
  have tab : '\t' ∉ m ++ ' ' :: w := by simp [hm.not_mem (c := '\t') (by decide), hw.not_mem (c := '\t') (by decide)]
  have pieces : splitAtSpaces (m ++ ' ' :: w) = [m, w] := by
    rw [splitAtSpaces_append_space (hm.not_mem (by decide)), splitAtSpaces_word (hw.not_mem (by decide))]
  simp [readLine, hash, tab, pieces, hm.ne_nil, hw.ne_nil, hm.getLast?_ne_colon]

/-! ### The listing line -/

/-- R80: a source of one line that is read as an instruction's mnemonic and operand assembles to the instruction's bytes. -/
theorem assemble_instr_line {line : Text} {i : Instr} {operand : Option WrittenOperand}
    (read : readLine line = .instr i.opcode.mnemonic.toList operand)
    (value : operandNumber [] operand = .ok i.raw.operand) : assemble [line] = .ok (encode i) := by
  have mnemonic : mnemonicOpcode i.opcode.mnemonic.toList = some i.opcode := by
    rw [mnemonicOpcode, String.ofList_toList, opcodeOf_mnemonic]
  have bytes : lineBytes [] (.instr i.opcode.mnemonic.toList operand) = .ok (encode i) := by
    have back : RawInstr.toInstr { opcode := i.opcode, operand := i.raw.operand } = some i := i.toInstr_raw
    simp [lineBytes, mnemonic, value, back]
  simp [assemble, read, collectLabels, mnemonic, emit, bytes]

theorem listingLine_assembles (i : Instr) :
    ∃ line, listingLine (.instr i) = some line ∧ assemble [line] = .ok (encode i) := by
  have word := isWord_mnemonic i.opcode
  match operand : i.operand with
  | none =>
    refine ⟨i.opcode.mnemonic.toList, by simp [listingLine, operand], ?_⟩
    exact assemble_instr_line (readLine_word word) (by simp [operandNumber, Instr.raw, operand])
  | some imm =>
    refine ⟨i.opcode.mnemonic.toList ++ ' ' :: imm.toNat.repr.toList, by simp [listingLine, operand], ?_⟩
    apply assemble_instr_line (readLine_two_words word (isWord_repr imm.toNat))
    simp [readOperand_repr, operandNumber, Instr.raw, operand, -Nat.toList_repr]

/-- Settles O59, by the two forms of a listing line, with and without an operand. -/
theorem listingLinesAssembleToTheInstruction : Obligations.ListingLinesAssembleToTheInstruction :=
  ⟨listingLine_assembles, fun _ => rfl⟩

end Sys2Proof.Assembler
end

section
/-! PROOF. The stages of a step, and what a step can end in (O2, O7, O35, O40, O41, O42). -/

namespace Sys2Proof

/-! ### The two arities -/

theorem Opcode.exists_plain_of_arity_zero {o : Opcode} (h : o.arity = 0) : ∃ i, o.shape = .plain i := by
  match shape : o.shape with
  | .plain i => exact ⟨i, rfl⟩
  | .withOperand _ => simp [Opcode.arity, shape] at h

theorem Opcode.exists_withOperand_of_arity_one {o : Opcode} (h : o.arity = 1) :
    ∃ build, o.shape = .withOperand build := by
  match shape : o.shape with
  | .plain _ => simp [Opcode.arity, shape] at h
  | .withOperand build => exact ⟨build, rfl⟩

/-- What a row of format `Z` makes is an instruction of that row without an operand (R61). -/
theorem Instr.parts_of_plain {o : Opcode} {i : Instr} (h : o.shape = .plain i) : i.opcode = o ∧ i.operand = none := by
  cases o <;> cases h <;> exact ⟨rfl, rfl⟩

/-- What a row of format `I` makes of a word is an instruction of that row with that operand (R61). -/
theorem Instr.parts_of_withOperand {o : Opcode} {build : Word → Instr} (h : o.shape = .withOperand build)
    (imm : Word) : (build imm).opcode = o ∧ (build imm).operand = some imm := by
  cases o <;> cases h <;> exact ⟨rfl, rfl⟩

namespace Machine

/-! ### Fetch and decode -/

/-- The bytes below `PROG_SIZE` exist (R40). -/
theorem State.exists_readByte {s : State} {a : Nat} (h : a < s.progSize.toNat) : ∃ b, s.readByte a = some b :=
  Option.ne_none_iff_exists'.mp (mt (State.readByte_eq_none_iff s a).mp (Nat.not_le.mpr h))

/-- R94: where a rule finds an instruction at `pc`, the step executes it. -/
theorem step_of_decodes_instr {s : State} {i : Instr} (running : s.mode = .running)
    (h : Decodes s.readByte s.pc.toNat (.instr i)) : step s = exec i s := by
  rw [step_running running, stepRunning_instr (decodeAt_eq_iff.mpr h)]

/-- R91, R92: where a rule finds bytes missing, the step faults. -/
theorem step_of_decodes_outOfBounds {s : State} (running : s.mode = .running)
    (h : Decodes s.readByte s.pc.toNat .outOfBounds) : step s = .next (s.enterFault .fetchOutOfBounds 0#16) := by
  rw [step_running running, stepRunning_outOfBounds (decodeAt_eq_iff.mpr h)]

/-- Settles O7: each stage is one rule of `Decodes`, and an opcode's arity says which of the two formats its row has. -/
theorem fetchAndDecodeFollowTheStages : Obligations.FetchAndDecodeFollowTheStages := by
  intro s running
  refine ⟨fun beyond => ?noByte, State.exists_readByte, fun b byte => ⟨?illegal, ?plain, ?truncated, ?word⟩⟩
  case noByte =>
    exact step_of_decodes_outOfBounds running (.noByte ((State.readByte_eq_none_iff s _).mpr beyond))
  case illegal =>
    intro unknown
    exact illegalOpcodeByteFaults s b running byte ((decodeByte_eq_none_iff b).mp unknown)
  case plain =>
    intro o known arity
    rw [← byte_of_decodeByte known] at byte
    obtain ⟨i, shape⟩ := Opcode.exists_plain_of_arity_zero arity
    obtain ⟨opcode, operand⟩ := Instr.parts_of_plain shape
    exact ⟨i, opcode, operand, step_of_decodes_instr running (.plain byte shape)⟩
  case truncated =>
    intro o known arity short
    rw [← byte_of_decodeByte known] at byte
    obtain ⟨build, shape⟩ := Opcode.exists_withOperand_of_arity_one arity
    have missing : s.readByte (s.pc.toNat + 2) = none := (State.readByte_eq_none_iff s _).mpr (by omega)
    exact step_of_decodes_outOfBounds running (.truncated byte shape (.inr missing))
  case word =>
    intro o known arity inside
    rw [← byte_of_decodeByte known] at byte
    obtain ⟨build, shape⟩ := Opcode.exists_withOperand_of_arity_one arity
    obtain ⟨lo, low⟩ : ∃ b, s.readByte (s.pc.toNat + 1) = some b := State.exists_readByte (by omega)
    obtain ⟨hi, high⟩ : ∃ b, s.readByte (s.pc.toNat + 2) = some b := State.exists_readByte (by omega)
    obtain ⟨opcode, operand⟩ := Instr.parts_of_withOperand shape (BitVec.ofNat 16 (lo.toNat + 256 * hi.toNat))
    exact ⟨_, lo, hi, low, high, opcode, operand,
      step_of_decodes_instr running (.withOperand byte shape low high)⟩

/-- Settles O2: an instruction is decoded where its encoding stands. -/
theorem stepRunsTheInstructionAtPc : Obligations.StepRunsTheInstructionAtPc := by
  intro s i running placed
  have found : fetch s = .instr i := decodeAt_eq_instr_iff.mpr placed
  exact ⟨found, by rw [step_running running, stepRunning_instr found]⟩

/-! ### What a step ends in -/

/-- Settles O40. -/
theorem noStepUnlessRunning : Obligations.NoStepUnlessRunning :=
  fun _ => step_not_running

/-- Settles O41: each of the three results of a step is a next state. -/
theorem everyStepAnswersANextState : Obligations.EveryStepAnswersANextState := by
  intro s
  have result := step_result s
  generalize step s = outcome at result
  cases result with
  | stands => exact ⟨s, rfl⟩
  | @completed _ t => exact ⟨t, rfl⟩
  | @faulted k info => exact ⟨s.enterFault k info, rfl⟩

/-- Settles O35: of the results of a step only fault entry leaves a record where there was none. -/
theorem faultsArePrecise : Obligations.FaultsArePrecise := by
  intro s t r running noFault h fault
  cases stepResult_of_step h with
  | stands still => exact absurd running still
  | completed _ _ _ done =>
    rw [done.fault, noFault] at fault
    cases fault
  | faulted =>
    cases fault
    exact ⟨rfl, rfl, rfl, rfl, rfl⟩

/-- `HALT` needs no words, divides nothing and calls nothing, so it raises no fault (R189). -/
theorem not_raises_halt {s : State} {k : FaultKind} {info : Word} : ¬ Raises .halt s k info := by
  intro h
  cases h with
  | underflow missing => exact Nat.not_lt_zero _ missing
  | divByZero isDiv => cases isDiv
  | modByZero isMod => cases isMod
  | nativeIndex isCall => cases isCall

theorem StepRaises.fetch_ne_halt {s : State} {k : FaultKind} {info : Word} (h : StepRaises s k info) :
    fetch s ≠ .instr .halt := by
  intro isHalt
  cases h with
  | inExec found raised =>
    cases isHalt.symm.trans found
    exact not_raises_halt raised
  | invalidOpcode found => cases isHalt.symm.trans found
  | outOfBounds found => cases isHalt.symm.trans found

/-- Settles O42: a completed instruction goes on running unless it is `HALT`, and a fault is never that of a `HALT`. -/
theorem stepHasOneOfThreeOutcomes : Obligations.StepHasOneOfThreeOutcomes := by
  intro s t running noFault h
  cases stepResult_of_step h with
  | stands still => exact absurd running still
  | @completed i _ _ found _ done =>
    have noFault' : t.fault = none := done.fault.trans noFault
    have mode := done.mode
    by_cases isHalt : i = .halt
    · rw [if_pos isHalt] at mode
      exact .inr (.inl ⟨mode, noFault', isHalt ▸ found⟩)
    · rw [if_neg isHalt, running] at mode
      exact .inl ⟨mode, noFault', found ▸ mt DecodeResult.instr.inj isHalt⟩
  | faulted _ raised => exact .inr (.inr ⟨rfl, nofun, raised.fetch_ne_halt⟩)

end Machine

end Sys2Proof
end

section
/-! PROOF. A step's outcome does not depend on what stands in the two output streams (O46). -/

namespace Sys2Proof.Machine

/-- The state with other contents of the two streams. -/
def State.withStreams (s : State) (prints : List Word) (calls : List (Word × Word)) : State :=
  { s with prints := prints, calls := calls }

/-- The fetch does not read the streams. -/
theorem fetch_withStreams (s : State) (prints : List Word) (calls : List (Word × Word)) :
    fetch (s.withStreams prints calls) = fetch s := rfl

/-- From `s`, an operation does to the streams nothing but append, and what it appends and everything else it does are the same
whatever stands in them. -/
def OnlyAppends (op : State → Outcome) (s : State) : Prop :=
  ∃ (t : State) (ps : List Word) (cs : List (Word × Word)), ∀ prints calls,
    op (s.withStreams prints calls) = .next (t.withStreams (prints ++ ps) (calls ++ cs))

theorem OnlyAppends.emit {f : State → State} {s : State} (ps : List Word) (cs : List (Word × Word))
    (h : ∀ prints calls, f (s.withStreams prints calls) = (f s).withStreams (prints ++ ps) (calls ++ cs)) :
    OnlyAppends (fun s => .next (f s)) s :=
  ⟨f s, ps, cs, fun prints calls => congrArg Host.Outcome.next (h prints calls)⟩

/-- An update of other fields appends nothing. -/
theorem OnlyAppends.quiet {f : State → State} {s : State}
    (h : ∀ prints calls, f (s.withStreams prints calls) = (f s).withStreams prints calls) :
    OnlyAppends (fun s => .next (f s)) s :=
  .emit [] [] fun prints calls => by rw [List.append_nil, List.append_nil, h]

theorem OnlyAppends.raise (k : FaultKind) (info : Word) (s : State) : OnlyAppends (raise k info) s :=
  .quiet fun _ _ => rfl

theorem OnlyAppends.ite {c : Prop} [Decidable c] {yes no : State → Outcome} {s : State} (hyes : OnlyAppends yes s)
    (hno : OnlyAppends no s) : OnlyAppends (fun s => if c then yes s else no s) s := by
  by_cases hc : c
  · simpa only [if_pos hc] using hyes
  · simpa only [if_neg hc] using hno

/-- An operation only appends if it agrees with one that does, whatever stands in the streams. -/
theorem OnlyAppends.of_eq {op op' : State → Outcome} {s : State} (h : OnlyAppends op' s)
    (same : ∀ prints calls, op (s.withStreams prints calls) = op' (s.withStreams prints calls)) : OnlyAppends op s := by
  obtain ⟨t, ps, cs, ends⟩ := h
  exact ⟨t, ps, cs, fun prints calls => (same prints calls).trans (ends prints calls)⟩

theorem OnlyAppends.withTop {go : State → Word → List Word → Outcome} {s : State}
    (h : ∀ a rest, OnlyAppends (fun s => go s a rest) s) : OnlyAppends (fun s => withTop s (go s)) s := by
  match hs : s.stk with
  | a :: rest =>
    exact (h a rest).of_eq fun prints calls =>
      withTop_cons (s := s.withStreams prints calls) hs _
  | [] =>
    exact (OnlyAppends.raise .stackUnderflow 0#16 s).of_eq fun prints calls =>
      withTop_nil (s := s.withStreams prints calls) hs _

theorem OnlyAppends.withTopTwo {go : State → Word → Word → List Word → Outcome} {s : State}
    (h : ∀ a b rest, OnlyAppends (fun s => go s a b rest) s) : OnlyAppends (fun s => withTopTwo s (go s)) s := by
  match hs : s.stk with
  | a :: b :: rest =>
    exact (h a b rest).of_eq fun prints calls =>
      withTopTwo_cons (s := s.withStreams prints calls) hs _
  | [_] | [] =>
    have short : s.stk.length < 2 := by simp [hs]
    exact (OnlyAppends.raise .stackUnderflow 0#16 s).of_eq fun prints calls =>
      withTopTwo_short (s := s.withStreams prints calls) short _

theorem OnlyAppends.binaryOp (o : Opcode) (f : Word → Word → Word) (s : State) : OnlyAppends (binaryOp o f) s :=
  .withTopTwo fun _ _ _ => .quiet fun _ _ => rfl

theorem OnlyAppends.divisionOp (o : Opcode) (divisor f : Word → Word → Word) (s : State) :
    OnlyAppends (divisionOp o divisor f) s :=
  .withTopTwo fun _ _ _ => .ite (.raise _ _ s) (.quiet fun _ _ => rfl)

theorem OnlyAppends.branchOn (o : Opcode) (taken : Word → Bool) (target : Word) (s : State) :
    OnlyAppends (branchOn o taken target) s :=
  .withTop fun c _ => .quiet fun _ _ => by cases taken c <;> rfl

/-- `CALL` appends its index and argument to the one stream (R150). -/
theorem OnlyAppends.callWith (n : Nat) (imm : Word) (s : State) : OnlyAppends (callWith n imm) s :=
  .withTop fun v _ => .ite (.raise _ _ s) (.emit [] [(imm, v)] fun prints _ => by rw [List.append_nil]; rfl)

/-- `PRINT` appends the top word to the other (R151). -/
theorem OnlyAppends.execPrint (s : State) : OnlyAppends execPrint s :=
  .withTop fun a _ => .emit [a] [] fun _ calls => by rw [List.append_nil]; rfl

theorem exec_onlyAppends (i : Instr) (s : State) : OnlyAppends (exec i) s := by
  cases i with
  | nop | halt | push | load | jmp => exact .quiet fun _ _ => rfl
  | pop | neg => exact .withTop fun _ _ => .quiet fun _ _ => rfl
  | print => exact .execPrint s
  | call => exact .callWith _ _ s
  | jmpz | jmpnz => exact .branchOn _ _ _ s
  | div | mod => exact .divisionOp _ _ _ s
  | equ | nequ | gt | gteq | lt | lteq | add | sub | mul | xor | or | and => exact .binaryOp _ _ s

/-- The streams decide nothing in the fetch, so the step is the same operation whatever stands in them. -/
theorem stepRunning_onlyAppends (s : State) : OnlyAppends stepRunning s := by
  have same : ∀ {r}, fetch s = r → ∀ prints calls, fetch (s.withStreams prints calls) = r :=
    fun found prints calls => (fetch_withStreams s prints calls).trans found
  match found : fetch s with
  | .instr i => exact (exec_onlyAppends i s).of_eq fun prints calls => stepRunning_instr (same found prints calls)
  | .invalidOpcode b =>
    exact (OnlyAppends.raise _ _ s).of_eq fun prints calls => stepRunning_invalid (same found prints calls)
  | .outOfBounds =>
    exact (OnlyAppends.raise _ _ s).of_eq fun prints calls => stepRunning_outOfBounds (same found prints calls)

/-- Settles O46: `stepRunning_onlyAppends`, at the engine's own streams and at any others. -/
theorem stepDoesNotReadTheStreams : Obligations.StepDoesNotReadTheStreams := by
  intro s running
  obtain ⟨t, ps, cs, same⟩ := stepRunning_onlyAppends s
  have step_eq : ∀ prints calls,
      step (s.withStreams prints calls) = .next (t.withStreams (prints ++ ps) (calls ++ cs)) := fun prints calls =>
    (step_running (s := s.withStreams prints calls) running).trans (same prints calls)
  exact ⟨t.withStreams (s.prints ++ ps) (s.calls ++ cs), ps, cs, step_eq s.prints s.calls, rfl, rfl, step_eq⟩

end Sys2Proof.Machine
end

section
/-! PROOF. The stack operations `PUSH`, `POP` and `LOAD` (O11, O12, O13). -/

namespace Sys2Proof.Machine

/-- Format `I` in arithmetic: the operand's bytes are its value modulo 256 and its quotient by 256 (R61). -/
theorem encode_of_withOperand_div {o : Opcode} {build : Word → Instr} (h : o.shape = .withOperand build) (imm : Word) :
    encode (build imm) = [o.byte, BitVec.ofNat 8 imm.toNat, BitVec.ofNat 8 (imm.toNat / 256)] := by
  have high : imm.toNat / 256 = (imm >>> 8).toNat := by
    rw [BitVec.toNat_ushiftRight, Nat.shiftRight_eq_div_pow]
  rw [encode_of_withOperand h, high, BitVec.ofNat_toNat, BitVec.ofNat_toNat]

/-- An operation on the top word faults where there is none (R182). -/
theorem withTop_short {s : State} (h : s.stk.length < 1) (go : Word → List Word → Outcome) :
    withTop s go = .next (s.enterFault .stackUnderflow 0#16) :=
  withTop_nil (List.length_eq_zero_iff.mp (Nat.lt_one_iff.mp h)) go

/-- Settles O11: a push on the unbounded and on a full stack, and O9 at the opcode byte of `PUSH`. -/
theorem pushPushesItsOperand : Obligations.PushPushesItsOperand := by
  refine ⟨fun imm => ?encoding, fun s imm => ?pushes, fun s imm depth full => ?overflow,
    fun s running byte short => ?truncated⟩
  case encoding => exact encode_of_withOperand_div (o := .push) rfl imm
  case pushes => exact pushWith_unbounded .push imm s
  case overflow => exact pushWith_full full.ge .push imm
  case truncated => exact truncatedInstructionFaults s _ running byte (.inl rfl) short

/-- Settles O12: the top word's form with a word on the stack and without one. -/
theorem popMovesTheTopIntoReg : Obligations.PopMovesTheTopIntoReg := by
  refine ⟨encode_of_plain (o := .pop) rfl, fun s a rest top => ?pops, fun s empty => ?underflow⟩
  case pops => exact withTop_cons top _
  case underflow => exact withTop_short empty _

/-- Settles O13: `LOAD` is the push of `reg`. -/
theorem loadPushesReg : Obligations.LoadPushesReg := by
  refine ⟨encode_of_plain (o := .load) rfl, fun s => ?pushes, fun s depth full => ?overflow⟩
  case pushes => exact pushWith_unbounded .load s.reg s
  case overflow => exact pushWith_full full.ge .load s.reg

end Sys2Proof.Machine
end

section
/-! PROOF. The arithmetic and logic instructions (O14 to O20). -/

namespace Sys2Proof.Machine

/-! ### The result words, in arithmetic over the natural numbers -/

/-- A number that is not negative is wrapped to its remainder modulo 65536 (R8). -/
theorem wrap_natCast (n : Nat) : wrap n = BitVec.ofNat 16 (n % 65536) := by
  apply BitVec.eq_of_toNat_eq
  rw [wrap, BitVec.ofInt_natCast, BitVec.toNat_ofNat, BitVec.toNat_ofNat, Nat.mod_mod]

/-- Wrapping leaves a number alone that is a word already. -/
theorem wrap_toNat_of_lt {n : Nat} (h : n < 65536) : (wrap n).toNat = n := by
  rw [wrap_natCast, Nat.mod_eq_of_lt h]
  exact Nat.mod_eq_of_lt h

theorem addWords_eq (a b : Word) : addWords a b = BitVec.ofNat 16 ((a.toNat + b.toNat) % 65536) :=
  wrap_natCast (a.toNat + b.toNat)

theorem mulWords_eq (a b : Word) : mulWords a b = BitVec.ofNat 16 (a.toNat * b.toNat % 65536) :=
  wrap_natCast (a.toNat * b.toNat)

/-- R115: a difference below 0 is wrapped by adding 65536 to it. -/
theorem subWords_eq (a b : Word) :
    subWords a b =
      BitVec.ofNat 16 (if a.toNat ≤ b.toNat then b.toNat - a.toNat else 65536 + b.toNat - a.toNat) := by
  have := a.isLt
  apply BitVec.eq_of_toNat_eq
  rw [subWords, wrap, BitVec.toNat_ofInt, BitVec.toNat_ofNat]
  split <;> omega

theorem not_eq_sub (a : Word) : ~~~a = BitVec.ofNat 16 (65535 - a.toNat) := by
  apply BitVec.eq_of_toNat_eq
  rw [BitVec.toNat_not, BitVec.toNat_ofNat]
  omega

/-- A quotient of two words is a word, so wrapping does nothing to it. -/
theorem divWords_toNat (a b : Word) : (divWords a b).toNat = b.toNat / a.toNat :=
  wrap_toNat_of_lt (Nat.lt_of_le_of_lt (Nat.div_le_self _ _) b.isLt)

/-- So is a remainder of two words. -/
theorem modWords_toNat (a b : Word) : (modWords a b).toNat = a.toNat % b.toNat :=
  wrap_toNat_of_lt (Nat.lt_of_le_of_lt (Nat.mod_le _ _) a.isLt)

/-! ### The division template by its divisor -/

theorem divisionOp_zero {s : State} {a b : Word} {rest : List Word} (top : s.stk = a :: b :: rest) (o : Opcode)
    {divisor : Word → Word → Word} (f : Word → Word → Word) (zero : divisor a b = 0#16) :
    divisionOp o divisor f s = .next (s.enterFault .divideByZero 0#16) :=
  (divisionOp_cons top o divisor f).trans (if_pos zero)

theorem divisionOp_nonzero {s : State} {a b : Word} {rest : List Word} (top : s.stk = a :: b :: rest) (o : Opcode)
    {divisor : Word → Word → Word} (f : Word → Word → Word) (nonzero : divisor a b ≠ 0#16) :
    divisionOp o divisor f s = .next ((s.advance o).setStk (f a b :: rest)) :=
  (divisionOp_cons top o divisor f).trans (if_neg nonzero)

/-! ### The obligations -/

/-- Settles O14: the binary template at `addWords`. -/
theorem addWrapsTheSum : Obligations.AddWrapsTheSum := by
  refine ⟨encode_of_plain (o := .add) rfl, fun s a b rest top => ?sum, fun s short => ?underflow⟩
  case sum => rw [← addWords_eq]; exact binaryOp_cons top .add addWords
  case underflow => exact binaryOp_short short .add addWords

/-- Settles O15: the binary template at `subWords`. -/
theorem subTakesTheTopFromTheWordUnderIt : Obligations.SubTakesTheTopFromTheWordUnderIt := by
  refine ⟨encode_of_plain (o := .sub) rfl, fun s a b rest top => ?difference, fun s short => ?underflow⟩
  case difference => rw [← subWords_eq]; exact binaryOp_cons top .sub subWords
  case underflow => exact binaryOp_short short .sub subWords

/-- Settles O16: the binary template at `mulWords`. -/
theorem mulKeepsTheLowHalf : Obligations.MulKeepsTheLowHalf := by
  refine ⟨encode_of_plain (o := .mul) rfl, fun s a b rest top => ?product, fun s short => ?underflow⟩
  case product => rw [← mulWords_eq]; exact binaryOp_cons top .mul mulWords
  case underflow => exact binaryOp_short short .mul mulWords

/-- Settles O17: the division template with the top word as divisor. -/
theorem divDividesByTheTop : Obligations.DivDividesByTheTop := by
  refine ⟨encode_of_plain (o := .div) rfl,
    fun s a b rest top nonzero => ⟨divWords a b, divisionOp_nonzero top .div divWords nonzero, ?lower, ?upper⟩,
    fun s b rest top => divisionOp_zero top .div divWords rfl, fun s short => divisionOp_short short .div _ divWords⟩
  case lower => rw [divWords_toNat]; exact Nat.div_mul_le_self _ _
  case upper => rw [divWords_toNat]; exact Nat.lt_mul_of_div_lt (Nat.lt_succ_self _) (BitVec.toNat_pos_of_ne_zero nonzero)

/-- Settles O18: the division template with the word under the top as divisor. -/
theorem modTakesTheTopModuloTheWordUnderIt : Obligations.ModTakesTheTopModuloTheWordUnderIt := by
  refine ⟨encode_of_plain (o := .mod) rfl,
    fun s a b rest top nonzero =>
      ⟨modWords a b, divisionOp_nonzero top .mod modWords nonzero, ?below, a.toNat / b.toNat, ?division⟩,
    fun s a rest top => divisionOp_zero top .mod modWords rfl, fun s short => divisionOp_short short .mod _ modWords⟩
  case below => rw [modWords_toNat]; exact Nat.mod_lt _ (BitVec.toNat_pos_of_ne_zero nonzero)
  case division => rw [modWords_toNat]; exact (Nat.div_add_mod' _ _).symm

/-- Settles O19: the binary template at the three bitwise operations. -/
theorem logicInstructionsWorkBitByBit : Obligations.LogicInstructionsWorkBitByBit := by
  refine ⟨⟨encode_of_plain (o := .xor) rfl, encode_of_plain (o := .or) rfl, encode_of_plain (o := .and) rfl⟩,
    fun s a b rest top => ⟨a ^^^ b, a ||| b, a &&& b, binaryOp_cons top .xor _, binaryOp_cons top .or _,
      binaryOp_cons top .and _, fun i _ => ⟨?differ, ?either, ?both⟩⟩,
    fun s short => ⟨binaryOp_short short .xor _, binaryOp_short short .or _, binaryOp_short short .and _⟩⟩
  case differ => rw [BitVec.getLsbD_xor, Bool.xor_iff_ne]
  case either => rw [BitVec.getLsbD_or, Bool.or_eq_true]
  case both => rw [BitVec.getLsbD_and, Bool.and_eq_true]

/-- Settles O20: the complement of the top word. -/
theorem negComplementsTheTop : Obligations.NegComplementsTheTop := by
  refine ⟨encode_of_plain (o := .neg) rfl, fun s a rest top => ?complement, fun s empty => ?underflow⟩
  case complement => rw [← not_eq_sub]; exact withTop_cons top _
  case underflow => exact withTop_short empty _

end Sys2Proof.Machine
end

section
/-! PROOF. The comparisons: each is the one template at its relation (O21 to O26), and so they are related as R137 says (O48). -/

namespace Sys2Proof.Machine

/-! ### The result words -/

theorem boolWord_decide (p : Prop) [Decidable p] : boolWord (decide p) = if p then 1#16 else 0#16 := by
  by_cases hp : p <;> simp [boolWord, hp]

/-- A relation and its complement give results that sum to 1. -/
theorem boolWord_toNat_of_iff_not {p q : Prop} [Decidable p] [Decidable q] (h : p ↔ ¬q) :
    (boolWord (decide p)).toNat = 1 - (boolWord (decide q)).toNat := by
  rw [boolWord_decide, boolWord_decide]
  by_cases hq : q <;> simp [h, hq]

/-- Of two numbers exactly one of less, equal and greater holds. -/
theorem boolWord_trichotomy (m n : Nat) :
    (boolWord (decide (m < n))).toNat + (boolWord (decide (m = n))).toNat + (boolWord (decide (m > n))).toNat = 1 := by
  simp only [boolWord_decide]
  rcases Nat.lt_trichotomy m n with less | equal | greater
  · simp [less, less.ne, less.not_gt]
  · simp [equal]
  · simp [greater, greater.ne', greater.not_gt]

/-! ### Each comparison instruction is the template at its relation (R131 to R136) -/

theorem exec_equ : exec .equ = compareOp .equ fun a b => decide (a = b) := rfl
theorem exec_nequ : exec .nequ = compareOp .nequ fun a b => decide (a ≠ b) := rfl
theorem exec_gt : exec .gt = compareOp .gt fun a b => decide (a > b) := rfl
theorem exec_gteq : exec .gteq = compareOp .gteq fun a b => decide (a ≥ b) := rfl
theorem exec_lt : exec .lt = compareOp .lt fun a b => decide (a < b) := rfl
theorem exec_lteq : exec .lteq = compareOp .lteq fun a b => decide (a ≤ b) := rfl

/-! ### The comparison instructions, once for all six -/

/-- R130: an instruction that is the comparison template at `rel` replaces its two operands by the word that tells whether `rel`
holds, and advances `pc`. -/
theorem exec_comparison {s : State} {a b : Word} {rest : List Word} (top : s.stk = a :: b :: rest) {o : Opcode} {i : Instr}
    {rel : Nat → Nat → Bool} (size : o.size = 1) (meaning : exec i = compareOp o rel) :
    exec i s = .next { s with pc := s.pc + 1#16, stk := boolWord (rel a.toNat b.toNat) :: rest } := by
  rw [meaning, compareOp_cons top, State.advance, size]
  rfl

/-- R130 with the encoding and the underflow: such an instruction is one byte long and needs two words. -/
theorem comparison_spec {o : Opcode} {i : Instr} {rel : Nat → Nat → Bool} {result : Word → Word → Word}
    (shape : o.shape = .plain i) (size : o.size = 1) (meaning : exec i = compareOp o rel)
    (result_eq : ∀ a b : Word, boolWord (rel a.toNat b.toNat) = result a b) :
    encode i = [o.byte] ∧
    (∀ (s : State) (a b : Word) (rest : List Word), s.stk = a :: b :: rest →
      exec i s = .next { s with pc := s.pc + 1#16, stk := result a b :: rest }) ∧
    (∀ s : State, s.stk.length < 2 → exec i s = .next (s.enterFault .stackUnderflow 0#16)) := by
  refine ⟨encode_of_plain shape, fun s a b rest top => ?compares, fun s short => ?underflow⟩
  case compares => rw [exec_comparison top size meaning, result_eq]
  case underflow => rw [meaning, compareOp_short short]

/-- Settles O21: two words are equal when their numbers are. -/
theorem equTestsEquality : Obligations.EquTestsEquality :=
  comparison_spec rfl rfl exec_equ fun a b => by simp only [boolWord_decide, BitVec.toNat_inj]

/-- Settles O22: `NEQU` tests the complement, so its two result words stand in the other order. -/
theorem nequTestsInequality : Obligations.NequTestsInequality :=
  comparison_spec rfl rfl exec_nequ fun a b => by simp only [boolWord_decide, ne_eq, ite_not, BitVec.toNat_inj]

/-- Settles O23. -/
theorem gtTestsWhetherTheTopIsGreater : Obligations.GtTestsWhetherTheTopIsGreater :=
  comparison_spec rfl rfl exec_gt fun a b => boolWord_decide (a.toNat > b.toNat)

/-- Settles O24. -/
theorem gteqTestsWhetherTheTopIsNotLess : Obligations.GteqTestsWhetherTheTopIsNotLess :=
  comparison_spec rfl rfl exec_gteq fun a b => boolWord_decide (a.toNat ≥ b.toNat)

/-- Settles O25. -/
theorem ltTestsWhetherTheTopIsLess : Obligations.LtTestsWhetherTheTopIsLess :=
  comparison_spec rfl rfl exec_lt fun a b => boolWord_decide (a.toNat < b.toNat)

/-- Settles O26. -/
theorem lteqTestsWhetherTheTopIsNotGreater : Obligations.LteqTestsWhetherTheTopIsNotGreater :=
  comparison_spec rfl rfl exec_lteq fun a b => boolWord_decide (a.toNat ≤ b.toNat)

/-! ### The relations between them -/

/-- Settles O48: the results are the truth words of the six relations on the same two numbers. `GT` on the swapped operands tests
`b > a`, which is `a < b`; `NEQU`, `GTEQ`, `LTEQ` test complements; and the numbers are trichotomous. -/
theorem comparisonsAreRelated : Obligations.ComparisonsAreRelated := by
  intro s a b rest top
  refine ⟨_, _, _, _, _, _, exec_comparison top rfl exec_equ, exec_comparison top rfl exec_nequ,
    exec_comparison top rfl exec_gt, exec_comparison top rfl exec_gteq,
    exec_comparison top rfl exec_lt, exec_comparison top rfl exec_lteq, ?swapped, ?nequ, ?gteq, ?lteq,
    ?exactlyOne⟩
  case swapped => exact exec_comparison (s := { s with stk := b :: a :: rest }) rfl rfl exec_gt
  case nequ => exact boolWord_toNat_of_iff_not Iff.rfl
  case gteq => exact boolWord_toNat_of_iff_not Nat.not_lt.symm
  case lteq => exact boolWord_toNat_of_iff_not Nat.not_lt.symm
  case exactlyOne => exact boolWord_trichotomy a.toNat b.toNat

end Sys2Proof.Machine
end

section
/-! PROOF. The branches: each accepts any target, and one beyond the program faults at the next step (O27, O28, O29, O47). -/

namespace Sys2Proof.Machine

/-! ### What each branch does -/

theorem exec_jmp (imm : Word) (s : State) : exec (.jmp imm) s = .next { s with pc := imm } := rfl

/-- R140: a conditional branch pops the word it tests; the branch decides only about `pc`. -/
theorem branchOn_next {s : State} {c : Word} {rest : List Word} (top : s.stk = c :: rest) {o : Opcode} (size : o.size = 3)
    (taken : Word → Bool) (target : Word) :
    branchOn o taken target s = .next { s with pc := if taken c then target else s.pc + 3#16, stk := rest } := by
  rw [branchOn_cons top, State.advance, size]
  cases taken c <;> rfl

theorem exec_jmpz {s : State} {c : Word} {rest : List Word} (top : s.stk = c :: rest) (imm : Word) :
    exec (.jmpz imm) s = .next { s with pc := if c = 0#16 then imm else s.pc + 3#16, stk := rest } := by
  rw [exec, execJmpz, branchOn_next top rfl]
  simp only [decide_eq_true_eq]

/-- The condition of `JMPNZ` is the complement of that of `JMPZ`, so its two targets stand in the other order. -/
theorem exec_jmpnz {s : State} {c : Word} {rest : List Word} (top : s.stk = c :: rest) (imm : Word) :
    exec (.jmpnz imm) s = .next { s with pc := if c = 0#16 then s.pc + 3#16 else imm, stk := rest } := by
  rw [exec, execJmpnz, branchOn_next top rfl]
  simp only [decide_eq_true_eq, ne_eq, ite_not]

/-- A taken branch, in each of its three forms, writes its target to `pc` and nothing else but the stack. -/
theorem exec_taken_branch {s : State} {i : Instr} {target : Word}
    (taken : i = .jmp target ∨ (i = .jmpz target ∧ s.stk.head? = some 0#16) ∨
      (i = .jmpnz target ∧ ∃ c, s.stk.head? = some c ∧ c ≠ 0#16)) :
    ∃ ws, exec i s = .next { s with pc := target, stk := ws } := by
  rcases taken with rfl | ⟨rfl, zero⟩ | ⟨rfl, c, head, nonzero⟩
  · exact ⟨s.stk, exec_jmp target s⟩
  · obtain ⟨rest, top⟩ := List.head?_eq_some_iff.mp zero
    exact ⟨rest, by rw [exec_jmpz top, if_pos rfl]⟩
  · obtain ⟨rest, top⟩ := List.head?_eq_some_iff.mp head
    exact ⟨rest, by rw [exec_jmpnz top, if_neg nonzero]⟩

/-- R91: no byte exists at or beyond `PROG_SIZE`, so a step there faults. -/
theorem step_beyond_program {s : State} (running : s.mode = .running) (beyond : s.progSize.toNat ≤ s.pc.toNat) :
    step s = .next (s.enterFault .fetchOutOfBounds 0#16) :=
  step_of_decodes_outOfBounds running (.noByte ((State.readByte_eq_none_iff s _).mpr beyond))

/-! ### The obligations -/

/-- Settles O27: the fault is that of the step at the target. -/
theorem jmpSetsPcToItsOperand : Obligations.JmpSetsPcToItsOperand := by
  refine ⟨encode_of_withOperand_div (o := .jmp) rfl, fun s imm => exec_jmp imm s, fun s t imm running beyond jumps => ?fault⟩
  case fault =>
    cases jumps
    exact step_beyond_program running beyond

/-- Settles O28: the branch template at `c = 0`, with a word on the stack and without one. -/
theorem jmpzPopsAndBranchesOnZero : Obligations.JmpzPopsAndBranchesOnZero := by
  refine ⟨encode_of_withOperand_div (o := .jmpz) rfl, fun s imm c rest top => ?branches, fun s imm empty => ?underflow⟩
  case branches => exact exec_jmpz top imm
  case underflow => exact withTop_short empty _

/-- Settles O29: the branch template at `c ≠ 0`, with a word on the stack and without one. -/
theorem jmpnzPopsAndBranchesOnNonzero : Obligations.JmpnzPopsAndBranchesOnNonzero := by
  refine ⟨encode_of_withOperand_div (o := .jmpnz) rfl, fun s imm c rest top => ?branches, fun s imm empty => ?underflow⟩
  case branches => exact exec_jmpnz top imm
  case underflow => exact withTop_short empty _

/-- Settles O47: the taken branch leaves `mode`, the fault record and `PROG_SIZE` alone, so the next step of the still running
engine is the one at the target. -/
theorem badBranchTargetFaultsOneStepLater : Obligations.BadBranchTargetFaultsOneStepLater := by
  intro s i target running noFault found taken
  obtain ⟨ws, branches⟩ := exec_taken_branch taken
  refine ⟨{ s with pc := target, stk := ws }, ?lands, rfl, running, noFault, fun beyond => ?faults⟩
  case lands => rw [step_running running, stepRunning_instr found, branches]
  case faults => exact ⟨_, _, step_beyond_program running beyond, rfl, rfl, rfl⟩

end Sys2Proof.Machine
end

section
/-! PROOF. The system instructions `CALL`, `PRINT`, `HALT` and `NOP` (O30, O31, O32, O33). -/

namespace Sys2Proof.Machine

/-! ### What the instructions and the session around them do -/

/-- R150: a `CALL` with an argument and an index inside the table. -/
theorem exec_call {s : State} {imm v : Word} {rest : List Word} (top : s.stk = v :: rest)
    (inTable : imm.toNat < Config.ncall) :
    exec (.call imm) s = .next { s with pc := s.pc + 3#16, stk := rest, calls := s.calls ++ [(imm, v)] } := by
  rw [exec, execCall, callWith_cons top, if_neg (Nat.not_le.mpr inTable)]
  rfl

theorem exec_halt (s : State) : exec .halt s = .next { s with pc := s.pc + 1#16, mode := .halted } := rfl

theorem exec_nop (s : State) : exec .nop s = .next { s with pc := s.pc + 1#16 } := rfl

/-- R90, R169: in a running session that waits for nothing the engine steps, and the session then waits if a call was sent. -/
theorem Session.next_engineStep {q : Session} {t : State} (ready : q.awaiting = false)
    (running : q.machine.mode = .running) (steps : step q.machine = .next t) :
    q.next .engineStep = some ({ machine := t, awaiting := sentCall q.machine t }, none) := by
  simp [Session.next, ready, running, steps]

theorem Session.next_engineStep_not_running {q : Session} (still : q.machine.mode ≠ .running) :
    q.next .engineStep = none := by
  simp [Session.next, still]

theorem sentCall_of_append {s t : State} {c : Word × Word} (sent : t.calls = s.calls ++ [c]) : sentCall s t = true := by
  simp [sentCall, sent]

/-- R169: after a step that sent a call the session waits. -/
theorem Session.next_engineStep_sent {q : Session} {t : State} {c : Word × Word} (ready : q.awaiting = false)
    (running : q.machine.mode = .running) (steps : step q.machine = .next t)
    (sent : t.calls = q.machine.calls ++ [c]) :
    q.next .engineStep = some ({ machine := t, awaiting := true }, none) := by
  rw [Session.next_engineStep ready running steps, sentCall_of_append sent]

/-- R26, R161: `reset` alone is accepted by a halted engine. -/
theorem hostOp_halted {s : State} (halted : s.mode = .halted) {op : HostOp} (notReset : op ≠ .reset) :
    hostOp op s = (s, .refused) := by
  have refused : op.acceptedIn s.mode = false := by
    rw [halted]
    cases op with
    | reset => exact absurd rfl notReset
    | load | preloadPc | start | stop => rfl
  rw [hostOp, refused, if_neg Bool.false_ne_true]

/-! ### The obligations -/

/-- Settles O30: the three ways through `callWith`, and in a session the step that took the first of them, which has sent a
call. -/
theorem callPopsItsArgumentAndSendsIt : Obligations.CallPopsItsArgumentAndSendsIt := by
  refine ⟨encode_of_withOperand_div (o := .call) rfl, Nat.succ_pos _, fun s imm v rest top inTable => exec_call top inTable,
    fun s imm => rfl, fun n s imm v rest top outside => ?invalidIndex, fun n s imm empty => ?underflow,
    fun q imm v rest ready running found top inTable => ?waits⟩
  case invalidIndex => rw [callWith_cons top, if_pos outside]
  case underflow => exact withTop_short empty _
  case waits =>
    have steps := (step_running running).trans ((stepRunning_instr found).trans (exec_call top inTable))
    exact ⟨_, steps, Session.next_engineStep_sent ready running steps rfl⟩

/-- Settles O31: the top word's form with a word on the stack and without one, and the numeral of a word as an operand. -/
theorem printEmitsTheTopAndKeepsIt : Obligations.PrintEmitsTheTopAndKeepsIt := by
  refine ⟨encode_of_plain (o := .print) rfl, fun s a rest top => ?prints, fun a => ⟨?digits, ?value⟩,
    fun s empty => ?underflow⟩
  case prints => exact withTop_cons top _
  case digits =>
    rw [renderPrinted, Nat.toList_repr, List.all_eq_true]
    intro c hc
    rw [Assembler.isDigit_eq_isDigit]
    exact Nat.isDigit_of_mem_toDigits (by decide) (by decide) hc
  case value => exact Assembler.readOperand_repr a.toNat
  case underflow => exact withTop_short empty _

/-- Settles O32: what `HALT` leaves is a halted engine, which neither steps nor takes an operation but `reset`. -/
theorem haltStopsTheEngine : Obligations.HaltStopsTheEngine := by
  refine ⟨encode_of_plain (o := .halt) rfl, exec_halt, fun s t halts => ?stopped⟩
  case stopped =>
    have halted : t.mode = .halted := by
      cases halts
      rfl
    exact ⟨Session.next_engineStep_not_running (by rw [halted]; nofun), fun op notReset => hostOp_halted halted notReset⟩

/-- Settles O33: byte 0 is the opcode of `NOP`, whose row has no operand. -/
theorem nopOnlyAdvancesPc : Obligations.NopOnlyAdvancesPc := by
  refine ⟨encode_of_plain (o := .nop) rfl, exec_nop, fun s running zero => ?steps⟩
  case steps => exact (step_of_decodes_instr running (.plain (o := .nop) zero rfl)).trans (exec_nop s)

end Sys2Proof.Machine
end

section
/-! PROOF. The host operations: where each is accepted and what it changes (O53, O54), the modes they lead through (O55), and
the status port (O56). -/

namespace Sys2Proof.Machine

/-! ### Acceptance -/

theorem hostOp_of_accepted {s : State} {op : HostOp} (accepted : op.acceptedIn s.mode = true) :
    hostOp op s = acceptedEffect op s := by
  rw [hostOp, if_pos accepted]

/-- R161: outside its modes an operation is refused and changes nothing. -/
theorem hostOp_of_not_accepted {s : State} {op : HostOp} (outside : op.acceptedIn s.mode = false) :
    hostOp op s = (s, .refused) := by
  rw [hostOp, outside, if_neg Bool.false_ne_true]

theorem hostOp_load_outside {s : State} (notIdle : s.mode ≠ .idle) (binary : Option (List Byte)) :
    hostOp (.load binary) s = (s, .refused) :=
  hostOp_of_not_accepted (beq_eq_false_iff_ne.mpr notIdle)

theorem hostOp_preloadPc_outside {s : State} (notIdle : s.mode ≠ .idle) (v : Word) :
    hostOp (.preloadPc v) s = (s, .refused) :=
  hostOp_of_not_accepted (beq_eq_false_iff_ne.mpr notIdle)

theorem hostOp_start_outside {s : State} (notIdle : s.mode ≠ .idle) : hostOp .start s = (s, .refused) :=
  hostOp_of_not_accepted (beq_eq_false_iff_ne.mpr notIdle)

theorem hostOp_stop_outside {s : State} (notRunning : s.mode ≠ .running) : hostOp .stop s = (s, .refused) :=
  hostOp_of_not_accepted (beq_eq_false_iff_ne.mpr notRunning)

/-! ### The accepted operations -/

theorem hostOp_reset (s : State) : hostOp .reset s = (State.reset, .ok) := rfl

theorem hostOp_load_idle {s : State} (idle : s.mode = .idle) (binary : Option (List Byte)) :
    hostOp (.load binary) s = loadIdle binary s :=
  hostOp_of_accepted (beq_iff_eq.mpr idle)

theorem hostOp_preloadPc_idle {s : State} (idle : s.mode = .idle) (v : Word) :
    hostOp (.preloadPc v) s = (s.jump v, .ok) :=
  hostOp_of_accepted (beq_iff_eq.mpr idle)

theorem hostOp_start_idle {s : State} (idle : s.mode = .idle) (program : s.progSize ≠ 0#16) :
    hostOp .start s = (s.setMode .running, .ok) :=
  (hostOp_of_accepted (op := .start) (beq_iff_eq.mpr idle)).trans (if_neg program)

/-- R164: nothing is started where no program is loaded. -/
theorem hostOp_start_empty {s : State} (idle : s.mode = .idle) (empty : s.progSize = 0#16) :
    hostOp .start s = (s, .refused) :=
  (hostOp_of_accepted (op := .start) (beq_iff_eq.mpr idle)).trans (if_pos empty)

theorem hostOp_stop_running {s : State} (running : s.mode = .running) :
    hostOp .stop s = (s.setMode .halted, .ok) :=
  hostOp_of_accepted (beq_iff_eq.mpr running)

/-! ### `load` -/

/-- The state with a program in the place of the one it holds: what a successful `load` leaves (`loadIdle_loadable`). -/
def State.withProgram (s : State) (bytes : List Byte) : State :=
  { s with prog := Memory.ofBytes bytes, progSize := BitVec.ofNat 16 bytes.length }

/-- The byte strings that `load` accepts (R162). -/
def Loadable (bytes : List Byte) : Prop :=
  0 < bytes.length ∧ bytes.length ≤ 65535

theorem loadIdle_loadable {bytes : List Byte} (h : Loadable bytes) (s : State) :
    loadIdle (some bytes) s = (s.withProgram bytes, .ok) := by
  obtain ⟨nonempty, fits⟩ := h
  refine if_neg (not_or.mpr ⟨List.ne_nil_of_length_pos nonempty, Nat.not_lt.mpr ?_⟩)
  exact fits

theorem loadIdle_not_loadable {bytes : List Byte} (h : ¬ Loadable bytes) (s : State) :
    loadIdle (some bytes) s = (s, .loadError) := by
  refine if_pos ?_
  by_cases nonempty : 0 < bytes.length
  · exact .inr (Nat.lt_of_not_le fun fits => h ⟨nonempty, fits⟩)
  · exact .inl (List.length_eq_zero_iff.mp (Nat.eq_zero_of_not_pos nonempty))

theorem not_loadable_nil : ¬ Loadable [] := fun h => Nat.lt_irrefl 0 h.1

theorem not_loadable_oversize {bytes : List Byte} (h : 65535 < bytes.length) : ¬ Loadable bytes := fun fits =>
  Nat.not_le.mpr h fits.2

/-- The length of a loadable program is a word (R6, R29). -/
theorem State.withProgram_progSize_toNat (s : State) {bytes : List Byte} (h : Loadable bytes) :
    (s.withProgram bytes).progSize.toNat = bytes.length :=
  (BitVec.toNat_ofNat _ _).trans (Nat.mod_eq_of_lt (Nat.lt_succ_of_le h.2))

theorem State.withProgram_progSize_ne_zero (s : State) {bytes : List Byte} (h : Loadable bytes) :
    (s.withProgram bytes).progSize ≠ 0#16 := by
  intro zero
  have size := s.withProgram_progSize_toNat h
  rw [zero] at size
  exact Nat.ne_of_gt h.1 size.symm

/-- A loaded program reads as its bytes, and nothing can be read beyond them (R40, R46). -/
theorem State.readByte_withProgram (s : State) {bytes : List Byte} (h : Loadable bytes) (a : Nat) :
    (s.withProgram bytes).readByte a = bytes[a]? := by
  rw [State.readByte, s.withProgram_progSize_toNat h]
  split
  · next inside =>
    have byte : Memory.read (s.withProgram bytes).prog a = (bytes[a]?).getD Memory.unlisted :=
      Memory.read_ofBytes bytes a
    rw [byte, List.getElem?_eq_getElem inside, Option.getD_some]
  · next beyond => exact (List.getElem?_eq_none (Nat.not_lt.mp beyond)).symm

/-! ### What a host operation can do -/

/-- What `hostOp` answers: every operation but the accepted ones leaves the state as it is and is not answered `ok`. -/
inductive HostOpResult (s : State) : HostOp → State × Answer → Prop
  | unchanged {op : HostOp} {a : Answer} (notOk : a ≠ .ok) : HostOpResult s op (s, a)
  | reset : HostOpResult s .reset (State.reset, .ok)
  | loaded {bytes : List Byte} (idle : s.mode = .idle) (loadable : Loadable bytes) :
      HostOpResult s (.load (some bytes)) (s.withProgram bytes, .ok)
  | preloaded {v : Word} (idle : s.mode = .idle) : HostOpResult s (.preloadPc v) (s.jump v, .ok)
  | started (idle : s.mode = .idle) (program : s.progSize ≠ 0#16) :
      HostOpResult s .start (s.setMode .running, .ok)
  | stopped (running : s.mode = .running) : HostOpResult s .stop (s.setMode .halted, .ok)

theorem loadIdle_result {s : State} (idle : s.mode = .idle) (binary : Option (List Byte)) :
    HostOpResult s (.load binary) (loadIdle binary s) := by
  match binary with
  | none => exact .unchanged nofun
  | some bytes =>
    by_cases loadable : Loadable bytes
    · rw [loadIdle_loadable loadable]
      exact .loaded idle loadable
    · rw [loadIdle_not_loadable loadable]
      exact .unchanged nofun

/-- The one inversion lemma of `hostOp`. -/
theorem hostOp_result (op : HostOp) (s : State) : HostOpResult s op (hostOp op s) := by
  by_cases accepted : op.acceptedIn s.mode = true
  · cases op with
    | reset => exact .reset
    | load binary =>
      have idle : s.mode = .idle := beq_iff_eq.mp accepted
      rw [hostOp_load_idle idle]
      exact loadIdle_result idle binary
    | preloadPc v =>
      have idle : s.mode = .idle := beq_iff_eq.mp accepted
      rw [hostOp_preloadPc_idle idle]
      exact .preloaded idle
    | start =>
      have idle : s.mode = .idle := beq_iff_eq.mp accepted
      by_cases program : s.progSize = 0#16
      · rw [hostOp_start_empty idle program]
        exact .unchanged nofun
      · rw [hostOp_start_idle idle program]
        exact .started idle program
    | stop =>
      have running : s.mode = .running := beq_iff_eq.mp accepted
      rw [hostOp_stop_running running]
      exact .stopped running
  · rw [hostOp_of_not_accepted (Bool.eq_false_of_not_eq_true accepted)]
    exact .unchanged nofun

/-- An operation that is not answered `ok` changes nothing (R161, R162, R164). -/
theorem hostOp_unchanged {op : HostOp} {s : State} (notOk : (hostOp op s).2 ≠ .ok) : (hostOp op s).1 = s := by
  have result := hostOp_result op s
  generalize hostOp op s = answered at notOk result
  cases result with
  | unchanged => rfl
  | reset | loaded | preloaded | started | stopped => exact absurd rfl notOk

/-- R26: the transitions between modes that the host makes. -/
theorem hostOp_mode {op : HostOp} {s : State} (changed : (hostOp op s).1.mode ≠ s.mode) :
    (op = .reset ∧ (hostOp op s).1.mode = .idle) ∨
    (op = .start ∧ s.mode = .idle ∧ (hostOp op s).1.mode = .running) ∨
    (op = .stop ∧ s.mode = .running ∧ (hostOp op s).1.mode = .halted) := by
  have result := hostOp_result op s
  generalize hostOp op s = answered at changed result
  cases result with
  | reset => exact .inl ⟨rfl, rfl⟩
  | started idle => exact .inr (.inl ⟨rfl, idle, rfl⟩)
  | stopped running => exact .inr (.inr ⟨rfl, running, rfl⟩)
  | unchanged | loaded | preloaded => exact absurd rfl changed

/-- R26: a step leaves a mode only from running to halted, by a `HALT` or by fault entry. -/
theorem step_mode {s t : State} (h : step s = .next t) (changed : t.mode ≠ s.mode) :
    s.mode = .running ∧ t.mode = .halted ∧
      (fetch s = .instr .halt ∨ ∃ (kind : FaultKind) (info : Word), t = s.enterFault kind info) := by
  cases stepResult_of_step h with
  | stands => exact absurd rfl changed
  | @completed i _ running found _ done =>
    have mode := done.mode
    by_cases isHalt : i = .halt
    · rw [if_pos isHalt] at mode
      exact ⟨running, mode, .inl (isHalt ▸ found)⟩
    · rw [if_neg isHalt] at mode
      exact absurd mode changed
  | @faulted kind info running => exact ⟨running, rfl, .inr ⟨kind, info, rfl⟩⟩

/-! ### The obligations -/

/-- Settles O55: the operations outside their modes, and the two inversion lemmas `hostOp_result` and `step_result` read for the
mode. -/
theorem modeChangesOnlyAlongTheStateMachine : Obligations.ModeChangesOnlyAlongTheStateMachine := by
  refine ⟨fun s op outside => ?refused, fun s op => hostOp_unchanged, fun s op => hostOp_mode, fun s t => step_mode⟩
  case refused =>
    obtain ⟨notIdle, ⟨binary, rfl⟩ | ⟨v, rfl⟩ | rfl⟩ | ⟨notRunning, rfl⟩ := outside
    · exact hostOp_load_outside notIdle binary
    · exact hostOp_preloadPc_outside notIdle v
    · exact hostOp_start_outside notIdle
    · exact hostOp_stop_outside notRunning

/-- Settles O53: what is not loadable gives `LoadError`, and what is stands in the program afterwards. -/
theorem loadReplacesTheProgramOrFails : Obligations.LoadReplacesTheProgramOrFails := by
  refine ⟨fun s binary notIdle => hostOp_load_outside notIdle binary, fun s idle => ?idle⟩
  simp only [hostOp_load_idle idle]
  refine ⟨rfl, loadIdle_not_loadable not_loadable_nil s,
    fun bytes oversize => loadIdle_not_loadable (not_loadable_oversize oversize) s, fun bytes nonempty fits => ?loads⟩
  case loads =>
    have loadable : Loadable bytes := ⟨nonempty, fits⟩
    exact ⟨s.withProgram bytes, loadIdle_loadable loadable s, s.withProgram_progSize_toNat loadable,
      s.readByte_withProgram loadable, rfl⟩

/-- Settles O54: each operation where it is accepted and where it is not, and `stop` as an event of a session. -/
theorem preloadStartAndStop : Obligations.PreloadStartAndStop := by
  refine ⟨fun s v idle => hostOp_preloadPc_idle idle v, fun s idle program => ?start, fun s idle empty => ?noProgram,
    fun s => hostOp_stop_running, fun s v notIdle => ⟨hostOp_preloadPc_outside notIdle v, hostOp_start_outside notIdle⟩,
    fun s => hostOp_stop_outside, hostOp_reset, fun q running => ?session⟩
  case start =>
    refine hostOp_start_idle idle fun zero => ?_
    rw [zero] at program
    exact Nat.lt_irrefl 0 program
  case noProgram => exact hostOp_start_empty idle (BitVec.eq_of_toNat_eq empty)
  case session =>
    rw [Session.next, hostOp_stop_running running]
    rfl

/-- Settles O56: a running engine shows its mode, any other the whole list, where the stack is reversed. -/
theorem statusPortShowsTheStateWhenNotRunning : Obligations.StatusPortShowsTheStateWhenNotRunning := by
  refine ⟨fun s running => ?modeOnly, fun s notRunning => ?whole⟩
  case modeOnly => rw [status, if_pos running, running]
  case whole =>
    rw [status, if_neg notRunning]
    exact ⟨_, rfl, rfl, rfl, rfl, List.reverse_reverse s.stk, rfl, rfl, rfl⟩

end Sys2Proof.Machine
end

section
/-! PROOF. Sessions: every event keeps the session's invariant (O51), and the wait for a native call (O58). -/

namespace Sys2Proof.Machine

/-! ### The host operations keep the invariant -/

theorem State.faultOk_of_none {s : State} (none : s.fault = none) : s.faultOk := by
  intro r hr
  rw [none] at hr
  cases hr

/-- An idle engine has no fault record: it has its reset values (R211). -/
theorem State.Inv.fault_eq_none_of_idle {s : State} (inv : s.Inv) (idle : s.mode = .idle) : s.fault = none := by
  obtain ⟨-, -, fault, -, -⟩ := inv.idle idle
  exact fault

theorem State.progOk_withProgram (s : State) {bytes : List Byte} (loadable : Loadable bytes) :
    (s.withProgram bytes).progOk := by
  refine ⟨Memory.wf_ofBytes bytes, fun c listed => ?_⟩
  rw [s.withProgram_progSize_toNat loadable]
  exact (Memory.ofBytesAt_bounds 0 bytes c listed).trans_eq (Nat.zero_add _)

theorem State.Inv.withProgram {s : State} {bytes : List Byte} (inv : s.Inv) (idle : s.mode = .idle)
    (loadable : Loadable bytes) : (s.withProgram bytes).Inv where
  prog := s.progOk_withProgram loadable
  fault := State.faultOk_of_none (inv.fault_eq_none_of_idle idle)
  idle := inv.idle
  started := fun notIdle => absurd idle notIdle
  calls := inv.calls

theorem State.Inv.jump_of_idle {s : State} (inv : s.Inv) (idle : s.mode = .idle) (v : Word) : (s.jump v).Inv where
  prog := inv.prog
  fault := State.faultOk_of_none (inv.fault_eq_none_of_idle idle)
  idle := inv.idle
  started := inv.started
  calls := inv.calls

/-- An engine without a fault record and with a program may be set running or halted. -/
theorem State.Inv.setMode {s : State} {m : Mode} (inv : s.Inv) (noFault : s.fault = none) (notIdle : m ≠ .idle)
    (program : s.progSize ≠ 0#16) : (s.setMode m).Inv where
  prog := inv.prog
  fault := State.faultOk_of_none noFault
  idle := fun idle => absurd idle notIdle
  started := fun _ => program
  calls := inv.calls

theorem State.Inv.of_hostOp {s : State} (inv : s.Inv) (op : HostOp) : (hostOp op s).1.Inv := by
  have result := hostOp_result op s
  generalize hostOp op s = answered at result
  cases result with
  | unchanged => exact inv
  | reset => exact resetMeetsTheInvariant
  | loaded idle loadable => exact inv.withProgram idle loadable
  | preloaded idle => exact inv.jump_of_idle idle _
  | started idle program => exact inv.setMode (inv.fault_eq_none_of_idle idle) nofun program
  | stopped running => exact inv.setMode (inv.fault_eq_none running) nofun (inv.progSize_ne_zero running)

/-! ### The native-call stream in a step -/

/-- A step leaves the native-call stream as it is or sends one call, and then the engine goes on running (R150, R168). -/
theorem step_calls {s t : State} (h : step s = .next t) :
    t.calls = s.calls ∨ ∃ c, t.calls = s.calls ++ [c] ∧ t.mode = .running := by
  cases stepResult_of_step h with
  | stands => exact .inl rfl
  | faulted => exact .inl rfl
  | completed running _ _ done =>
    refine done.calls.imp_right ?_
    rintro ⟨imm, v, rfl, -, -, sent⟩
    exact ⟨(imm, v), sent, done.mode.trans running⟩

theorem sentCall_of_eq {s t : State} (same : t.calls = s.calls) : sentCall s t = false := by
  simp [sentCall, same]

theorem sentCall_iff_of_step {s t : State} (h : step s = .next t) : sentCall s t = true ↔ t.calls ≠ s.calls := by
  rcases step_calls h with same | ⟨c, sent, -⟩
  · simp [sentCall_of_eq same, same]
  · simp [sentCall_of_append sent, sent]

/-- A step that sent a call did not halt the engine. -/
theorem running_of_sentCall {s t : State} (h : step s = .next t) (sent : sentCall s t = true) : t.mode = .running := by
  rcases step_calls h with same | ⟨c, -, running⟩
  · rw [sentCall_of_eq same] at sent
    cases sent
  · exact running

/-! ### What an event can do -/

/-- What the events of a session lead to, the engine's step only where it is running and no call is waited for. -/
inductive NextResult (q : Session) : Event → Session × Option Answer → Prop
  | stepped {t : State} (ready : q.awaiting = false) (running : q.machine.mode = .running)
      (steps : step q.machine = .next t) :
      NextResult q .engineStep ({ machine := t, awaiting := sentCall q.machine t }, none)
  | operated {op : HostOp} (ready : q.awaiting = false) :
      NextResult q (.host op)
        ({ machine := (hostOp op q.machine).1, awaiting := false }, some (hostOp op q.machine).2)
  | completed (waiting : q.awaiting = true) : NextResult q .complete ({ machine := q.machine, awaiting := false }, none)

theorem Session.next_engineStep_waiting {q : Session} (waiting : q.awaiting = true) : q.next .engineStep = none := by
  simp [Session.next, waiting]

theorem Session.next_host_waiting {q : Session} (waiting : q.awaiting = true) (op : HostOp) :
    q.next (.host op) = none := by
  simp [Session.next, waiting]

theorem Session.next_complete_waiting {q : Session} (waiting : q.awaiting = true) :
    q.next .complete = some ({ machine := q.machine, awaiting := false }, none) := by
  simp [Session.next, waiting]

theorem Session.next_host {q : Session} (ready : q.awaiting = false) (op : HostOp) :
    q.next (.host op) =
      some ({ machine := (hostOp op q.machine).1, awaiting := false }, some (hostOp op q.machine).2) := by
  simp [Session.next, ready]

theorem Session.next_complete_ready {q : Session} (ready : q.awaiting = false) : q.next .complete = none := by
  simp [Session.next, ready]

/-- The one inversion lemma of `Session.next`. -/
theorem nextResult_of_next {q : Session} {e : Event} {r : Session × Option Answer} (h : q.next e = some r) :
    NextResult q e r := by
  by_cases waiting : q.awaiting = true
  · cases e with
    | engineStep => rw [Session.next_engineStep_waiting waiting] at h; cases h
    | host op => rw [Session.next_host_waiting waiting] at h; cases h
    | complete =>
      rw [Session.next_complete_waiting waiting] at h
      cases h
      exact .completed waiting
  have ready : q.awaiting = false := Bool.eq_false_of_not_eq_true waiting
  cases e with
  | engineStep =>
    by_cases running : q.machine.mode = .running
    · obtain ⟨t, steps⟩ := everyStepAnswersANextState q.machine
      rw [Session.next_engineStep ready running steps] at h
      cases h
      exact .stepped ready running steps
    · rw [Session.next_engineStep_not_running running] at h
      cases h
  | host op =>
    rw [Session.next_host ready] at h
    cases h
    exact .operated ready
  | complete => rw [Session.next_complete_ready ready] at h; cases h

/-! ### The obligations -/

/-- Settles O51, by the three kinds of event: a step keeps the machine's invariant and waits only where it goes on running, and
after a host operation or a completion nothing is waited for. -/
theorem everySessionKeepsTheInvariant : Obligations.EverySessionKeepsTheInvariant := by
  refine ⟨⟨resetMeetsTheInvariant, nofun⟩, fun q q' e a inv h => ?event⟩
  cases nextResult_of_next h with
  | stepped _ _ steps => exact ⟨everyStepKeepsTheInvariant _ _ inv.machine steps, running_of_sentCall steps⟩
  | operated => exact ⟨inv.machine.of_hostOp _, nofun⟩
  | completed => exact ⟨inv.machine, nofun⟩

/-- Settles O58: the events of a waiting session, and the wait after a step read off the native-call stream. -/
theorem nothingStepsDuringANativeCall : Obligations.NothingStepsDuringANativeCall := by
  refine ⟨fun q waiting => ⟨Session.next_engineStep_waiting waiting, Session.next_host_waiting waiting,
    Session.next_complete_waiting waiting⟩, fun q q' h => ?afterStep⟩
  cases nextResult_of_next h with
  | stepped _ _ steps => exact sentCall_iff_of_step steps

end Sys2Proof.Machine
end

section
/-! PROOF. The `run` composite (O57). -/

namespace Sys2Proof.Machine

/-! ### Runs of the machine and steps until halted -/

theorem core_run_succ {s t : State} (steps : step s = .next t) (k : Nat) : core.run (k + 1) s = core.run k t := by
  have steps' : core.step s = .next t := steps
  simp only [Host.Core.run, steps']

/-- A halted engine stays as it is (R90). -/
theorem core_run_halted {s : State} (halted : s.mode = .halted) (k : Nat) : core.run k s = .next s := by
  induction k with
  | zero => rfl
  | succ k ih =>
    have stands : step s = .next s := step_not_running (by rw [halted]; nofun)
    rw [core_run_succ stands, ih]

theorem stepUntilHalted_halted {s : State} (halted : s.mode = .halted) (fuel : Nat) :
    stepUntilHalted fuel s = some s := by
  cases fuel <;> exact if_pos halted

theorem stepUntilHalted_zero {s : State} (going : s.mode ≠ .halted) : stepUntilHalted 0 s = none :=
  if_neg going

theorem stepUntilHalted_succ {s t : State} (going : s.mode ≠ .halted) (steps : step s = .next t) (fuel : Nat) :
    stepUntilHalted (fuel + 1) s = stepUntilHalted fuel t := by
  rw [stepUntilHalted, if_neg going, steps]

/-- A halted state that a run reaches within the bound is where stepping until halted ends. -/
theorem stepUntilHalted_of_run {k fuel : Nat} {s t : State} (run : core.run k s = .next t) (halted : t.mode = .halted)
    (bound : k ≤ fuel) : stepUntilHalted fuel s = some t := by
  induction k generalizing s fuel with
  | zero =>
    cases run
    exact stepUntilHalted_halted halted fuel
  | succ k ih =>
    by_cases already : s.mode = .halted
    · rw [core_run_halted already] at run
      cases run
      exact stepUntilHalted_halted halted fuel
    · obtain ⟨fuel, rfl⟩ := Nat.exists_eq_add_one_of_ne_zero (Nat.ne_zero_of_lt bound)
      obtain ⟨s', steps⟩ := everyStepAnswersANextState s
      rw [core_run_succ steps] at run
      rw [stepUntilHalted_succ already steps]
      exact ih run (Nat.le_of_succ_le_succ bound)

/-- Where a run up to the bound has reached no halted state, stepping until halted has not ended. -/
theorem stepUntilHalted_eq_none {fuel : Nat} {s t : State} (run : core.run fuel s = .next t)
    (going : t.mode ≠ .halted) : stepUntilHalted fuel s = none := by
  induction fuel generalizing s with
  | zero =>
    cases run
    exact stepUntilHalted_zero going
  | succ fuel ih =>
    have notYet : s.mode ≠ .halted := by
      intro already
      rw [core_run_halted already] at run
      cases run
      exact going already
    obtain ⟨s', steps⟩ := everyStepAnswersANextState s
    rw [core_run_succ steps] at run
    rw [stepUntilHalted_succ notYet steps]
    exact ih run

/-! ### `run` -/

/-- The engine freshly reset, loaded and started: where `run` begins to step (R172). -/
def State.launched (bytes : List Byte) : State :=
  (State.reset.withProgram bytes).setMode .running

section
variable {α : Type} (exitStatusOf : RunOutcome → α) (fuel : Nat) (s : State)

theorem runBinary_loadError {binary : Option (List Byte)}
    (fails : loadIdle binary State.reset = (State.reset, .loadError)) :
    runBinary exitStatusOf fuel binary s = .loadError := by
  have load : hostOp (.load binary) State.reset = (State.reset, .loadError) := (hostOp_load_idle rfl binary).trans fails
  simp only [runBinary, hostOp_reset, load]

theorem runBinary_loadable {bytes : List Byte} (loadable : Loadable bytes) :
    runBinary exitStatusOf fuel (some bytes) s =
      ((stepUntilHalted fuel (State.launched bytes)).elim .stillRunning fun t => .exited (exitStatusOf (runOutcome t))) := by
  have load : hostOp (.load (some bytes)) State.reset = (State.reset.withProgram bytes, .ok) :=
    (hostOp_load_idle rfl _).trans (loadIdle_loadable loadable _)
  have start : hostOp .start (State.reset.withProgram bytes) = (State.launched bytes, .ok) :=
    hostOp_start_idle rfl (State.reset.withProgram_progSize_ne_zero loadable)
  simp only [runBinary, hostOp_reset, load, start]
  cases stepUntilHalted fuel (State.launched bytes) <;> rfl

end

/-- Settles O57: `run` steps the launched engine until halted, and `core.run` says where that ends. -/
theorem runReturnsTheOutcomeOfTheHaltedState : Obligations.RunReturnsTheOutcomeOfTheHaltedState := by
  intro α exitStatusOf s fuel
  refine ⟨runBinary_loadError _ _ _ rfl, runBinary_loadError _ _ _ rfl, fun bytes oversize => ?tooLong,
    fun bytes k t nonempty fits bound run => ⟨fun halted => ?halts, fun atBound going => ?goesOn⟩⟩
  case tooLong => exact runBinary_loadError _ _ _ (loadIdle_not_loadable (not_loadable_oversize oversize) _)
  case halts =>
    rw [runBinary_loadable _ _ _ ⟨nonempty, fits⟩, stepUntilHalted_of_run (s := State.launched bytes) run halted bound]
    rfl
  case goesOn =>
    subst atBound
    rw [runBinary_loadable _ _ _ ⟨nonempty, fits⟩, stepUntilHalted_eq_none (s := State.launched bytes) run going]
    rfl

end Sys2Proof.Machine
end

section
/-! PROOF. Faults: what fault entry writes (O34), which instruction raises which fault and exactly when (O36, O37, O38, O39), and
that a faulted engine stays as it is until `reset` (O52). -/

namespace Sys2Proof.Machine

/-! ### The condition under which each kind is raised -/

section
variable {i : Instr} {s : State} {info : Word}

/-- R182. -/
theorem raises_stackUnderflow_iff :
    Raises i s .stackUnderflow info ↔ info = 0#16 ∧ s.stk.length < wordsNeeded i := by
  constructor
  · intro h
    cases h with
    | underflow missing => exact ⟨rfl, missing⟩
  · rintro ⟨rfl, missing⟩
    exact .underflow missing

/-- R183. -/
theorem raises_divideByZero_iff :
    Raises i s .divideByZero info ↔ info = 0#16 ∧
      ((i = .div ∧ ∃ b rest, s.stk = 0#16 :: b :: rest) ∨ (i = .mod ∧ ∃ a rest, s.stk = a :: 0#16 :: rest)) := by
  constructor
  · intro h
    cases h with
    | divByZero isDiv top => exact ⟨rfl, .inl ⟨isDiv, _, _, top⟩⟩
    | modByZero isMod top => exact ⟨rfl, .inr ⟨isMod, _, _, top⟩⟩
  · rintro ⟨rfl, ⟨isDiv, b, rest, top⟩ | ⟨isMod, a, rest, top⟩⟩
    · exact .divByZero isDiv top
    · exact .modByZero isMod top

/-- R185, R188. -/
theorem raises_invalidNativeIndex_iff :
    Raises i s .invalidNativeIndex info ↔ i = .call info ∧ Config.ncall ≤ info.toNat ∧ s.stk ≠ [] := by
  constructor
  · intro h
    cases h with
    | nativeIndex isCall nonempty outside => exact ⟨isCall, outside, nonempty⟩
  · rintro ⟨isCall, outside, nonempty⟩
    exact .nativeIndex isCall nonempty outside

/-- R181, R184, R186: the kinds that no instruction raises, those of the fetch and decode stages and of a finite stack. -/
theorem Raises.kind_ne {k : FaultKind} (h : Raises i s k info) :
    k ≠ .stackOverflow ∧ k ≠ .invalidOpcode ∧ k ≠ .fetchOutOfBounds := by
  cases h <;> exact ⟨nofun, nofun, nofun⟩

/-- R110, R182, R188: a fault other than `StackUnderflow` is raised only after the test of the depth. -/
theorem Raises.enough {k : FaultKind} (h : Raises i s k info) (later : k ≠ .stackUnderflow) :
    wordsNeeded i ≤ s.stk.length := by
  cases h with
  | underflow => exact absurd rfl later
  | divByZero isDiv top => simp [isDiv, top, wordsNeeded]
  | modByZero isMod top => simp [isMod, top, wordsNeeded]
  | nativeIndex isCall nonempty => rw [isCall]; exact List.length_pos_iff.mpr nonempty

/-! ### The conditions decide the fault -/

/-- R182: without the words it needs an instruction neither completes nor raises another fault. -/
theorem exec_short (missing : s.stk.length < wordsNeeded i) :
    exec i s = .next (s.enterFault .stackUnderflow 0#16) := by
  have result := exec_result i s
  generalize exec i s = outcome at result
  cases result with
  | completed enough => exact absurd missing (Nat.not_lt.mpr enough)
  | @faulted k info raised =>
    by_cases underflow : k = .stackUnderflow
    · subst underflow
      obtain ⟨rfl, -⟩ := raises_stackUnderflow_iff.mp raised
      rfl
    · exact absurd missing (Nat.not_lt.mpr (raised.enough underflow))

/-- The converse of `exec_next_cases` for faults: where the condition of a fault holds, that fault is entered. -/
theorem exec_of_raises {k : FaultKind} (h : Raises i s k info) : exec i s = .next (s.enterFault k info) := by
  cases h with
  | underflow missing => exact exec_short missing
  | divByZero isDiv top => rw [isDiv]; exact divisionOp_zero top .div divWords rfl
  | modByZero isMod top => rw [isMod]; exact divisionOp_zero top .mod modWords rfl
  | nativeIndex isCall nonempty outside =>
    obtain ⟨v, rest, top⟩ := List.exists_cons_of_ne_nil nonempty
    rw [isCall, exec, execCall, callWith_cons top, if_pos outside]

/-- A record that an instruction wrote is that of a fault it raised, and its stack is as before (R95). -/
theorem raises_of_exec_fault {t : State} {r : FaultRecord} {k : FaultKind} (noFault : s.fault = none)
    (h : exec i s = .next t) (fault : t.fault = some r) (kind : r.kind = k) :
    Raises i s k r.info ∧ t.stk = s.stk := by
  rcases exec_next_cases h with done | ⟨_, _, raised, rfl⟩
  · rw [done.fault, noFault] at fault
    cases fault
  · cases fault
    exact ⟨kind ▸ raised, rfl⟩

/-- An instruction's step records a fault of kind `k` exactly when the condition of that kind holds. -/
theorem exec_fault_iff {t : State} (noFault : s.fault = none) (h : exec i s = .next t) (k : FaultKind) :
    (∃ r, t.fault = some r ∧ r.kind = k) ↔ ∃ info, Raises i s k info := by
  constructor
  · rintro ⟨r, fault, kind⟩
    obtain ⟨raised, -⟩ := raises_of_exec_fault noFault h fault kind
    exact ⟨r.info, raised⟩
  · rintro ⟨info, raised⟩
    cases h.symm.trans (exec_of_raises raised)
    exact ⟨_, rfl, rfl⟩

end

/-! ### The depth of the stack -/

/-- If the outcome is a next state, its stack is no deeper than that of `s`. -/
def NotDeeper (s : State) (o : Outcome) : Prop :=
  ∀ t, o = .next t → t.stk.length ≤ s.stk.length

section
variable {s : State}

theorem NotDeeper.next {t : State} (h : t.stk.length ≤ s.stk.length) : NotDeeper s (.next t) := by
  rintro _ ⟨⟩
  exact h

theorem NotDeeper.raise (k : FaultKind) (info : Word) : NotDeeper s (raise k info s) :=
  .next (Nat.le_refl _)

theorem NotDeeper.withTop {go : Word → List Word → Outcome}
    (h : ∀ a rest, s.stk = a :: rest → NotDeeper s (go a rest)) : NotDeeper s (withTop s go) := by
  match hs : s.stk with
  | a :: rest => rw [withTop_cons hs]; exact h a rest hs
  | [] => rw [withTop_nil hs]; exact .raise _ _

theorem NotDeeper.withTopTwo {go : Word → Word → List Word → Outcome}
    (h : ∀ a b rest, s.stk = a :: b :: rest → NotDeeper s (go a b rest)) : NotDeeper s (withTopTwo s go) := by
  match hs : s.stk with
  | a :: b :: rest => rw [withTopTwo_cons hs]; exact h a b rest hs
  | [_] | [] => rw [withTopTwo_short (by simp [hs])]; exact .raise _ _

/-- Two words are popped and one is pushed (R110). -/
theorem NotDeeper.binaryOp (o : Opcode) (f : Word → Word → Word) : NotDeeper s (binaryOp o f s) :=
  .withTopTwo fun _ _ _ hs => .next (by simp [hs])

theorem NotDeeper.divisionOp (o : Opcode) (divisor f : Word → Word → Word) :
    NotDeeper s (divisionOp o divisor f s) := by
  refine .withTopTwo fun a b rest hs => ?_
  split
  · exact .raise _ _
  · exact .next (by simp [hs])

theorem NotDeeper.branchOn (o : Opcode) (taken : Word → Bool) (target : Word) :
    NotDeeper s (branchOn o taken target s) :=
  .withTop fun c _ hs => .next (by cases taken c <;> simp [hs])

theorem NotDeeper.callWith (n : Nat) (imm : Word) : NotDeeper s (callWith n imm s) := by
  refine .withTop fun v rest hs => ?_
  split
  · exact .raise _ _
  · exact .next (by simp [hs])

end

/-- R186: of all instructions only `PUSH` and `LOAD` deepen the stack. -/
theorem exec_notDeeper {i : Instr} (notPush : ∀ imm, i ≠ .push imm) (notLoad : i ≠ .load) (s : State) :
    NotDeeper s (exec i s) := by
  cases i with
  | push imm => exact absurd rfl (notPush imm)
  | load => exact absurd rfl notLoad
  | nop | jmp | halt => exact .next (Nat.le_refl _)
  | pop => exact .withTop fun _ _ hs => .next (by simp [hs])
  | neg => exact .withTop fun _ _ hs => .next (by simp [hs])
  | print => exact .withTop fun _ _ _ => .next (Nat.le_refl _)
  | call => exact .callWith _ _
  | jmpz | jmpnz => exact .branchOn _ _ _
  | div | mod => exact .divisionOp _ _ _
  | equ | nequ | gt | gteq | lt | lteq | add | sub | mul | xor | or | and => exact .binaryOp _ _

/-! ### A halted session -/

theorem Session.exists_next_of_run_cons {q q' : Session} {e : Event} {events : List Event}
    (h : q.run (e :: events) = some q') : ∃ q₁ a, q.next e = some (q₁, a) ∧ q₁.run events = some q' := by
  match next : q.next e with
  | some (q₁, a) => exact ⟨q₁, a, rfl, by simpa only [Session.run, next] using h⟩
  | none => simp [Session.run, next] at h

/-- R90, R161: no event but `reset` changes a halted machine. -/
theorem Session.machine_of_next_halted {q q' : Session} {e : Event} {a : Option Answer}
    (halted : q.machine.mode = .halted) (notReset : e ≠ .host .reset) (h : q.next e = some (q', a)) :
    q'.machine = q.machine := by
  cases nextResult_of_next h with
  | stepped _ running => cases halted.symm.trans running
  | operated => rw [hostOp_halted halted (mt (congrArg Event.host) notReset)]
  | completed => rfl

/-- No sequence of events without `reset` changes a halted machine. -/
theorem Session.machine_of_run_halted {events : List Event} {q q' : Session} (halted : q.machine.mode = .halted)
    (noReset : Event.host .reset ∉ events) (h : q.run events = some q') : q'.machine = q.machine := by
  induction events generalizing q with
  | nil =>
    cases h
    rfl
  | cons e events ih =>
    obtain ⟨notHead, notTail⟩ := not_or.mp (mt List.mem_cons.mpr noReset)
    obtain ⟨q₁, a, next, rest⟩ := Session.exists_next_of_run_cons h
    have same : q₁.machine = q.machine := Session.machine_of_next_halted halted (Ne.symm notHead) next
    exact (ih (same ▸ halted) notTail rest).trans same

/-! ### The obligations -/

/-- Settles O34: both sides of each equation are the definition of `enterFault` or of `FaultKind.code`, written out. -/
theorem faultEntryWritesTheRecordAndHalts : Obligations.FaultEntryWritesTheRecordAndHalts :=
  ⟨fun _ _ _ => rfl, rfl, rfl, rfl, rfl, rfl, rfl⟩

/-- Settles O36: the conditions of `Raises` decide the fault, and that of `StackUnderflow` is the missing words. -/
theorem stackUnderflowExactlyWhenWordsAreMissing : Obligations.StackUnderflowExactlyWhenWordsAreMissing := by
  intro i s t noFault h
  refine ⟨?missing, fun r fault kind => ?record⟩
  case missing => simp only [exec_fault_iff noFault h, raises_stackUnderflow_iff, exists_eq_left]
  case record =>
    obtain ⟨raised, stack⟩ := raises_of_exec_fault noFault h fault kind
    exact ⟨(raises_stackUnderflow_iff.mp raised).1, stack⟩

/-- Settles O37: the condition of `DivideByZero` is `DIV` or `MOD` with its own divisor 0. -/
theorem divideByZeroExactlyOnZeroDivisor : Obligations.DivideByZeroExactlyOnZeroDivisor := by
  intro i s t noFault h
  refine ⟨?zeroDivisor, fun r fault kind => ?record⟩
  case zeroDivisor => simp only [exec_fault_iff noFault h, raises_divideByZero_iff, exists_eq_left]
  case record =>
    obtain ⟨raised, stack⟩ := raises_of_exec_fault noFault h fault kind
    exact ⟨(raises_divideByZero_iff.mp raised).1, stack⟩

/-- Settles O38: the operand of the `CALL` is the `info` with which it is raised. -/
theorem invalidNativeIndexExactlyOnBadIndex : Obligations.InvalidNativeIndexExactlyOnBadIndex := by
  intro i s t noFault h
  refine ⟨?badIndex, fun r fault kind => ?record⟩
  case badIndex => simp only [exec_fault_iff noFault h, raises_invalidNativeIndex_iff]
  case record =>
    obtain ⟨raised, stack⟩ := raises_of_exec_fault noFault h fault kind
    exact ⟨(raises_invalidNativeIndex_iff.mp raised).1, stack⟩

/-- Settles O39: the kinds that instructions raise, the push at a finite capacity, and `exec_notDeeper`. -/
theorem stackOverflowOnlyWithAFiniteDepth : Obligations.StackOverflowOnlyWithAFiniteDepth := by
  refine ⟨fun i s t r noFault h fault => ?kinds, fun o v s depth => ⟨fun full => ?overflow, fun room => ?pushes⟩,
    fun i s t h notPush notLoad => ?depth⟩
  case kinds =>
    obtain ⟨raised, -⟩ := raises_of_exec_fault noFault h fault rfl
    exact raised.kind_ne
  case overflow => exact pushWith_full full.ge o v
  case pushes => exact ⟨_, pushWith_room room o v, rfl, room, rfl⟩
  case depth => exact exec_notDeeper notPush notLoad s t h

/-- Settles O52: the machine is the halted one of the beginning, with its fault. -/
theorem aFaultedRunStaysAsItIsUntilReset : Obligations.AFaultedRunStaysAsItIsUntilReset := by
  intro events q q' halted faulted noReset h
  have same : q'.machine = q.machine := Session.machine_of_run_halted halted noReset h
  rw [same]
  exact ⟨rfl, ⟨halted, faulted⟩, fun ⟨_, noFault⟩ => faulted noFault⟩

end Sys2Proof.Machine
end
